-- ==== Sys2Proof/Word.lean ====
section
/-! DEFINITION. The word types of the eZ8 (00_scope.md R5 to R7, R12): bit 0 is the least significant bit. -/

namespace Sys2Proof

/-- A Register File location, an ALU operand, a program byte: 8 bits (R5). -/
abbrev Byte := BitVec 8

/-- A 4-bit field: a working-register number or a condition code. -/
abbrev Nibble := BitVec 4

/-- A Register File address: 12 bits, 000h to FFFh (R6). -/
abbrev Addr12 := BitVec 12

/-- A program address, the width of the program counter: 16 bits (R7). -/
abbrev Addr16 := BitVec 16

end Sys2Proof
end

