-- ==== Sys2Proof/Config.lean ====
section
/-! DEFINITION. What an implementation fixes: the parameters of 00_scope.md section 4, plain data that the
launch state carries (70_reset_and_hazards.md R221), and the one free value of the spec. -/

namespace Sys2Proof

/-- What BRK does (R9). -/
inductive BrkMode where
  | stop
  | nop
deriving DecidableEq, Repr

/-- What a product's map can say of a Register File address (R8); where it says nothing, RP and Flags stand at
their addresses. -/
inductive LocKind where
  | ram
  | sph
  | spl
  | device
  | absent
deriving DecidableEq, Repr

/-- The class of a Register File address (R8). -/
inductive RegClass where
  | ram
  | rp
  | flags
  | sph
  | spl
  | device
  | absent
deriving DecidableEq, Repr

/-- A run of Register File addresses, both ends included, of one kind. -/
structure Region where
  first : Addr12
  last  : Addr12
  kind  : LocKind
deriving DecidableEq, Repr

/-- The parameters of the machine and of the run (R7 to R11). `regMap`: the first region that holds an address
gives its kind; of the addresses no region holds, `rpAddr` is RP, `flagsAddr` is Flags and the rest are absent, so a
map that holds `flagsAddr` leaves Flags without a location (D4). `blank`: what a Register File location holds that
State lists no byte for; `none`, it is unwritten (70_reset_and_hazards.md R221). -/
structure Config where
  progSize    : Nat
  rpAddr      : Addr12
  flagsAddr   : Addr12
  regMap      : List Region
  blank       : Option Byte
  brkMode     : BrkMode
  admitGkRows : Bool
  endPc       : Option Addr16
deriving DecidableEq, Repr

/-- The Register File map of the reset state. Page Fh is the default of R8: FFCh and FFDh, which no region holds,
are Flags and RP. DESIGN CHOICE (log 4): 000h to EFFh is ram; R8 gives it no default. -/
def Config.defaultMap : List Region :=
  [⟨0x000, 0xEFF, .ram⟩, ⟨0xF00, 0xFFB, .device⟩, ⟨0xFFE, 0xFFE, .sph⟩, ⟨0xFFF, 0xFFF, .spl⟩]

/-- The parameters of the reset state: the spec's defaults (R7 to R10, D1, D3, D8, D27). DESIGN CHOICE: `regMap`
below page Fh (log 4), `blank` (log 1), `endPc` (log 7). -/
def Config.default : Config where
  progSize    := 65536
  rpAddr      := 0xFFD
  flagsAddr   := 0xFFC
  regMap      := Config.defaultMap
  blank       := some 0
  brkMode     := .stop
  admitGkRows := false
  endPc       := none

/-- What R7 and R8 ask of the parameters: program memory no larger than 64 KB, RP and Flags at two places. -/
def Config.wf (c : Config) : Bool :=
  decide (c.progSize ≤ 65536) && decide (c.rpAddr ≠ c.flagsAddr)

/-- FREE VALUE (93_implementation_defined.md U6; log 8): the V flag after the n-th decimal adjust. It has no
body: no proof can see it. -/
opaque Config.freeV : Nat → Bool

end Sys2Proof
end

