-- ==== Sys2Proof/Machine/State.lean ====
section
/-! DEFINITION. The state of the machine (10_state.md; 70_reset_and_hazards.md R221), the ways a step can stop
(60_exceptions.md R190) and the state after reset. -/

namespace Sys2Proof.Machine

/-- The six CPU flags and the two user flags of the Flags register, bit 7 first (R31, R41). -/
structure Flags where
  c  : Bool
  z  : Bool
  s  : Bool
  v  : Bool
  d  : Bool
  h  : Bool
  f2 : Bool
  f1 : Bool
deriving DecidableEq, Repr

/-- What of RP and of the flags is undefined (`true`): the launch state gave it no value and nothing has written it
since (70_reset_and_hazards.md R221, R222). -/
structure Undef where
  rp    : Bool
  flags : Flags
deriving DecidableEq, Repr

/-- `pc` the program counter (R28); `rp` the Register Pointer (R40); `flags` the Flags register (R41); `regs` the
Register File locations with storage of their own, working registers, SPH and SPL among them (R20, R43); `prog`
the program memory (R52); `undef` what is undefined of `rp` and `flags` (R221): what those two hold in its place no
instruction can read (log 6); `cfg` the parameters of the machine and the run (R221), which no step changes. `draws`
is the model's own: how many free values have been drawn (log 8). -/
structure State where
  pc    : Addr16
  rp    : Byte
  flags : Flags
  undef : Undef
  regs  : List Host.Cell
  prog  : List Host.Cell
  draws : Nat
  cfg   : Config
deriving DecidableEq, Repr

/-- Why the machine stops in a fault. -/
inductive Fault where
  /-- Raised by the fetch: an instruction byte at or beyond PROG_SIZE, or past FFFFh (R53). Safe: the spec does not
  say what the chip does. -/
  | fetchOutsideProgramMemory
  /-- Raised by the fetch: the launch image gives no byte at this address (log 3). Safe: nothing is proved of it. -/
  | unprogrammedByte (addr : Nat)
  /-- Raised by the read of a Register File location, of RP or of a flag that the launch state left undefined and
  nothing has written since (R61, R222). Safe: nothing is proved of a value that is not there. No run from
  State.reset meets it: everything holds a value there (log 1). -/
  | unwrittenRegister (a : Addr12)
  /-- Raised by BRK with BRK_MODE stop: the Break of R161, an end of the run (R227). Safe: nothing is proved of
  what follows a BRK. -/
  | brk
  /-- Raised by the fetch at `pc = END_PC`: the run is over and final (R227; log 7). Safe: nothing is fetched or
  executed. -/
  | endOfRun
deriving DecidableEq, Repr

/-- Why the machine gives an instruction no meaning. -/
inductive Refusal where
  /-- Raised by exec's arm of an instruction that has no meaning yet. Safe. No arm raises it. -/
  | notModelled (mnemonic : String)
  /-- Raised by the fetch: Op Code bytes outside the map (R103, R106). Safe. -/
  | unknownOpCode (bytes : List Byte)
  /-- Raised by the fetch: byte 2 bits 7:4 of Op Code 09, 69 or 79 not 0h (R104). Safe. -/
  | reservedOperandBits
  /-- Raised by the resolution of a 12-bit operand in Page E that is no escape (R98). Safe. -/
  | escapedPageE
  /-- Raised by the resolution of an indirect operand whose pointer has bits 7:4 = Eh (R99, R100). Safe. -/
  | indirectEscape
  /-- Raised by LDWX on an odd source or destination address (R152). Safe. -/
  | ldwxOddAddress
  /-- Raised by a read or write of a location of class device or absent (R61, R62). Safe. -/
  | unmodelledRegister (a : Addr12)
  /-- Raised by an instruction that writes flags, when its destination is the Flags location (R42). Safe. -/
  | flagsAsDestination
  /-- Raised by DA on an input no row of its table matches (R122). Safe. -/
  | daInputNotBcd
deriving DecidableEq, Repr

def State.setPc (s : State) (v : Addr16) : State := { s with pc := v }
def State.setRp (s : State) (v : Byte) : State := { s with rp := v }
def State.setFlags (s : State) (v : Flags) : State := { s with flags := v }
def State.setUndef (s : State) (v : Undef) : State := { s with undef := v }
def State.setRegs (s : State) (v : List Host.Cell) : State := { s with regs := v }
def State.setProg (s : State) (v : List Host.Cell) : State := { s with prog := v }
def State.setDraws (s : State) (v : Nat) : State := { s with draws := v }
def State.setCfg (s : State) (v : Config) : State := { s with cfg := v }

/-- All eight bits of Flags 0. -/
def Flags.zero : Flags := ⟨false, false, false, false, false, false, false, false⟩

/-- Nothing is undefined. -/
def Undef.nothing : Undef := ⟨false, Flags.zero⟩

/-- The state after reset. The spec states no reset value (R47, R220). DESIGN CHOICE: registers and flags 0,
none undefined (log 1), pc 0000h (log 2), no program byte given (log 3), no value drawn (log 8). The parameters are
those of `Config.default`. -/
def State.reset : State where
  pc    := 0
  rp    := 0
  flags := Flags.zero
  undef := Undef.nothing
  regs  := []
  prog  := []
  draws := 0
  cfg   := Config.default

end Sys2Proof.Machine
end

