-- ==== Sys2Proof/Syntax.lean ====
section
/-! DEFINITION. The instructions: one constructor per row of spec/opcode_table.json (30_encoding.md R102).
A constructor carries the row's address modes in its name: r working register, Ir indirect through a working
register, R 8-bit register address, IR indirect through one, ER 12-bit register address, IM immediate (R19).
Operands stand destination first, source second (R107). -/

namespace Sys2Proof

/-- The sixteen condition codes in the order of their 4-bit codes (10_state.md R39). -/
inductive Cond where
  | f   -- 0 always false
  | lt  -- 1 less than
  | le  -- 2 less than or equal
  | ule -- 3 unsigned less than or equal
  | ov  -- 4 overflow
  | mi  -- 5 minus
  | z   -- 6 zero, equal
  | c   -- 7 carry, unsigned less than
  | t   -- 8 always true
  | ge  -- 9 greater than or equal
  | gt  -- A greater than
  | ugt -- B unsigned greater than
  | nov -- C no overflow
  | pl  -- D plus
  | nz  -- E non-zero, not equal
  | nc  -- F no carry, unsigned greater than or equal
deriving DecidableEq, Repr

inductive Instr where
  /-- 00, R161 -/
  | brk
  /-- 01, R180 -/
  | srp (im : Byte)
  /-- 02, R113 -/
  | add_r_r (d s : Nibble)
  /-- 03, R114 -/
  | add_r_Ir (d s : Nibble)
  /-- 04, R115 -/
  | add_R_R (db sb : Byte)
  /-- 05, R116 -/
  | add_R_IR (db sb : Byte)
  /-- 06, R117 -/
  | add_R_IM (db im : Byte)
  /-- 07, R118 -/
  | add_IR_IM (db im : Byte)
  /-- 08, R119 -/
  | addx_ER_ER (e1 e2 : Addr12)
  /-- 09, R120 -/
  | addx_ER_IM (e1 : Addr12) (im : Byte)
  /-- xA, R163 -/
  | djnz (d : Nibble) (ra : Byte)
  /-- xB, R165 -/
  | jr (cc : Cond) (ra : Byte)
  /-- xC, R150 -/
  | ld_r_IM (d : Nibble) (im : Byte)
  /-- 1F E8, R152 -/
  | ldwx_ER_ER (e1 e2 : Addr12)
  /-- 68, R137 -/
  | tcmx_ER_ER (e1 e2 : Addr12)
  /-- 69, R138 -/
  | tcmx_ER_IM (e1 : Addr12) (im : Byte)
  /-- 78, R140 -/
  | tmx_ER_ER (e1 e2 : Addr12)
  /-- 79, R141 -/
  | tmx_ER_IM (e1 : Addr12) (im : Byte)
  /-- 52, R131 -/
  | and_r_r (d s : Nibble)
  /-- 53, R132 -/
  | and_r_Ir (d s : Nibble)
  /-- 54, R133 -/
  | and_R_R (db sb : Byte)
  /-- 55, R134 -/
  | and_R_IR (db sb : Byte)
  /-- 56, R135 -/
  | and_R_IM (db im : Byte)
  /-- 57, R136 -/
  | and_IR_IM (db im : Byte)
  /-- 40, R122 -/
  | da_R (db : Byte)
  /-- 41, R122 -/
  | da_IR (db : Byte)
  /-- xD, R168 -/
  | jp (cc : Cond) (da16 : Addr16)
deriving DecidableEq, Repr

end Sys2Proof
end

