-- ==== Sys2Proof/Machine/Flags.lean ====
section
/-! DEFINITION. The Flags register as a byte (10_state.md R41), every flag computation (40_arithmetic.md R111,
41_logical_and_test.md R130), the condition codes (10_state.md R39), and which flags each defines and reads. -/

namespace Sys2Proof.Machine

/-- The byte of the Flags register: bit 7 C, 6 Z, 5 S, 4 V, 3 D, 2 H, 1 F2, 0 F1 (R41). -/
def flagsToByte (f : Flags) : Byte :=
  BitVec.ofBool f.c ++ BitVec.ofBool f.z ++ BitVec.ofBool f.s ++ BitVec.ofBool f.v ++
    BitVec.ofBool f.d ++ BitVec.ofBool f.h ++ BitVec.ofBool f.f2 ++ BitVec.ofBool f.f1

/-- The flags a byte written to the Flags register leaves, all eight bits (R41, R62). -/
def flagsOfByte (b : Byte) : Flags where
  c  := b.getLsbD 7
  z  := b.getLsbD 6
  s  := b.getLsbD 5
  v  := b.getLsbD 4
  d  := b.getLsbD 3
  h  := b.getLsbD 2
  f2 := b.getLsbD 1
  f1 := b.getLsbD 0

/-- Carry out of bit 7: bit 8 of the 9-bit sum (R111, R34). -/
def carryOut (a b : Byte) : Bool := (a.setWidth 9 + b.setWidth 9).getLsbD 8

/-- Carry out of bit 3: bit 4 of the 5-bit sum of the low nibbles (R111, R33). -/
def halfCarry (a b : Byte) : Bool :=
  ((a.extractLsb' 0 4).setWidth 5 + (b.extractLsb' 0 4).setWidth 5).getLsbD 4

/-- Signed overflow: operands of one sign, result of the other (R111, R37). -/
def overflow (a b res : Byte) : Bool := (a.getLsbD 7 == b.getLsbD 7) && (res.getLsbD 7 != a.getLsbD 7)

/-- The flags after `a + b` (add8, R111): F2 and F1 unchanged. -/
def addFlags (a b : Byte) (f : Flags) : Flags :=
  let res := a + b
  { f with
    c := carryOut a b
    z := res == 0
    s := res.getLsbD 7
    v := overflow a b res
    d := false
    h := halfCarry a b }

/-- The flags of an 8-bit logical result (logic_flags, R130): C, D, H, F2, F1 unchanged. -/
def logicFlags (res : Byte) (f : Flags) : Flags :=
  { f with z := res == 0, s := res.getLsbD 7, v := false }

/-! ### Sets of flags: a Flags record with `true` for each flag in the set (70_reset_and_hazards.md R222) -/

/-- All eight bits of the Flags register. -/
def allFlags : Flags := ⟨true, true, true, true, true, true, true, true⟩

/-- The flags ADD and ADDX define: all six. -/
def addDefines : Flags := ⟨true, true, true, true, true, true, false, false⟩

/-- The flags AND, TCMX and TMX define: Z, S and V. -/
def logicDefines : Flags := ⟨false, true, true, true, false, false, false, false⟩

/-- The flags DA defines (40_arithmetic.md R122): C, Z, S, and V, which is a draw. -/
def daDefines : Flags := ⟨true, true, true, true, false, false, false, false⟩

/-- The flags DA reads (40_arithmetic.md R122): D, C and H. -/
def daReads : Flags := ⟨true, false, false, false, true, true, false, false⟩

/-- The flags the test of a condition code reads (10_state.md R39). -/
def condReads : Cond → Flags
  | .f | .t => Flags.zero
  | .lt | .ge => { Flags.zero with s := true, v := true }
  | .le | .gt => { Flags.zero with z := true, s := true, v := true }
  | .ule | .ugt => { Flags.zero with c := true, z := true }
  | .ov | .nov => { Flags.zero with v := true }
  | .mi | .pl => { Flags.zero with s := true }
  | .z | .nz => { Flags.zero with z := true }
  | .c | .nc => { Flags.zero with c := true }

/-- Some flag is in both sets. -/
def flagsMeet (u m : Flags) : Bool :=
  (u.c && m.c) || (u.z && m.z) || (u.s && m.s) || (u.v && m.v) || (u.d && m.d) || (u.h && m.h) ||
    (u.f2 && m.f2) || (u.f1 && m.f1)

/-- The flags of `u` that are not in `m`. -/
def flagsMinus (u m : Flags) : Flags :=
  ⟨u.c && !m.c, u.z && !m.z, u.s && !m.s, u.v && !m.v, u.d && !m.d, u.h && !m.h, u.f2 && !m.f2, u.f1 && !m.f1⟩

/-- Whether the flag test of a condition code holds (R39). -/
def condHolds (f : Flags) : Cond → Bool
  | .f   => false
  | .lt  => f.s ^^ f.v
  | .le  => f.z || (f.s ^^ f.v)
  | .ule => f.c || f.z
  | .ov  => f.v
  | .mi  => f.s
  | .z   => f.z
  | .c   => f.c
  | .t   => true
  | .ge  => !(f.s ^^ f.v)
  | .gt  => !(f.z || (f.s ^^ f.v))
  | .ugt => !f.c && !f.z
  | .nov => !f.v
  | .pl  => !f.s
  | .nz  => !f.z
  | .nc  => !f.c

end Sys2Proof.Machine
end

