-- ==== Sys2Proof/Machine/Ops.lean ====
section
/-! DEFINITION. The named operations over the two address spaces and the registers (20_memory.md). Each keeps its
memory in canonical form. There is no operation that takes an exception: the spec gives the machine none
(60_exceptions.md R190, R195, R196). -/

namespace Sys2Proof.Machine

/-- What an operation answers: a value, a fault or a refusal; no state change with the latter two (R195). -/
abbrev Result (α : Type) := Host.Outcome α Fault Refusal

/-- Go on with a value; stop with a fault or a refusal. -/
def andThen {α β : Type} (r : Result α) (k : α → Result β) : Result β :=
  match r with
  | .next a => k a
  | .fault f => .fault f
  | .refused q => .refused q

/-! ### Cells: addresses strictly rising -/

def cellFind : List Host.Cell → Nat → Option Byte
  | [], _ => none
  | c :: t, k => if c.1 = k then some c.2 else cellFind t k

def cellInsert : List Host.Cell → Nat → Byte → List Host.Cell
  | [], k, v => [(k, v)]
  | c :: t, k, v =>
    if k < c.1 then (k, v) :: c :: t else if c.1 = k then (k, v) :: t else c :: cellInsert t k v

def cellErase (m : List Host.Cell) (k : Nat) : List Host.Cell := m.filter fun c => decide (c.1 ≠ k)

/-- Addresses strictly rising. -/
def cellsRising : List Host.Cell → Bool
  | [] => true
  | c :: t => t.all (fun e => decide (c.1 < e.1)) && cellsRising t

/-! ### Register File storage (R61, R62): what an unlisted location holds is `Config.blank` -/

/-- The byte a location of storage holds, if anything has been written there. -/
def regFileFind (blank : Option Byte) (m : List Host.Cell) (a : Addr12) : Option Byte :=
  (cellFind m a.toNat).or blank

def regFileWrite (blank : Option Byte) (m : List Host.Cell) (a : Addr12) (v : Byte) : List Host.Cell :=
  if blank = some v then cellErase m a.toNat else cellInsert m a.toNat v

/-- The canonical form of the Register File storage. -/
def regFileWf (blank : Option Byte) (m : List Host.Cell) : Bool :=
  cellsRising m && m.all (fun c => decide (c.1 < 4096) && decide (blank ≠ some c.2))

/-! ### Program memory (R52, R53): an unlisted byte has no value (log 3) -/

def progWrite (m : List Host.Cell) (a : Nat) (v : Byte) : List Host.Cell := cellInsert m a v

/-- The canonical form of program memory. -/
def progWf (m : List Host.Cell) : Bool :=
  cellsRising m && m.all (fun c => decide (c.1 < 65536))

/-- Both memories are in canonical form. -/
def Memory.wf (s : State) : Bool := regFileWf s.cfg.blank s.regs && progWf s.prog

/-- The `n` bytes from address `a` up. -/
def progBytes (m : List Host.Cell) (a : Nat) : Nat → Result (List Byte)
  | 0 => .next []
  | n + 1 =>
    match cellFind m a with
    | none => .fault (.unprogrammedByte a)
    | some b => andThen (progBytes m (a + 1) n) fun t => .next (b :: t)

/-- MemRead (R53): `n` bytes at `addr`; no address may be at or beyond PROG_SIZE, nor past FFFFh (no wrap, R30). -/
def memRead (s : State) (addr : Addr16) (n : Nat) : Result (List Byte) :=
  if s.cfg.progSize < addr.toNat + n ∨ 65536 < addr.toNat + n then .fault .fetchOutsideProgramMemory
  else progBytes s.prog addr.toNat n

/-! ### The classes of the Register File (R8) and RegRead, RegWrite (R61, R62) -/

/-- The kind the product's map gives an address, if it says: the first region that holds it. -/
def kindAt : List Region → Addr12 → Option LocKind
  | [], _ => none
  | r :: t, a => if r.first ≤ a ∧ a ≤ r.last then some r.kind else kindAt t a

def kindClass : LocKind → RegClass
  | .ram => .ram
  | .sph => .sph
  | .spl => .spl
  | .device => .device
  | .absent => .absent

/-- RegClass (R8): the map's, and where it says nothing RP and Flags at their addresses (R40, R41). -/
def regClass (c : Config) (a : Addr12) : RegClass :=
  match kindAt c.regMap a with
  | some k => kindClass k
  | none => if a = c.rpAddr then .rp else if a = c.flagsAddr then .flags else .absent

/-- The model gives the location a meaning: its class is neither device nor absent (R44). -/
def modelled (c : Config) (a : Addr12) : Bool :=
  match regClass c a with
  | .ram | .rp | .flags | .sph | .spl => true
  | .device | .absent => false

/-- Nothing has written the location and the launch state gives it no value (R61, R222): a byte of storage, RP, or
any of the eight flag bits. -/
def unwritten (s : State) (a : Addr12) : Bool :=
  match regClass s.cfg a with
  | .rp => s.undef.rp
  | .flags => flagsMeet s.undef.flags allFlags
  | .ram | .sph | .spl => (regFileFind s.cfg.blank s.regs a).isNone
  | .device | .absent => false

/-- A read of the location gives a value. -/
def readable (s : State) (a : Addr12) : Bool := modelled s.cfg a && !unwritten s a

/-- The value of a readable location. -/
def regVal (s : State) (a : Addr12) : Byte :=
  match regClass s.cfg a with
  | .rp => s.rp
  | .flags => flagsToByte s.flags
  | .ram | .sph | .spl | .device | .absent => (regFileFind s.cfg.blank s.regs a).getD 0

/-- RP set and defined. -/
def putRp (s : State) (v : Byte) : State := (s.setRp v).setUndef { s.undef with rp := false }

/-- The flags set; those of the set `d` are defined from now on, the others as much as before. -/
def putFlags (s : State) (v d : Flags) : State :=
  (s.setFlags v).setUndef { s.undef with flags := flagsMinus s.undef.flags d }

/-- A modelled location set to a value: RP counts from the next instruction, Flags takes all eight bits. -/
def regPut (s : State) (a : Addr12) (v : Byte) : State :=
  match regClass s.cfg a with
  | .rp => putRp s v
  | .flags => putFlags s (flagsOfByte v) allFlags
  | .ram | .sph | .spl | .device | .absent => s.setRegs (regFileWrite s.cfg.blank s.regs a v)

/-- The location must be modelled (60_exceptions.md R194 (6)). -/
def mustBeModelled (c : Config) (a : Addr12) : Result Unit :=
  if modelled c a then .next () else .refused (.unmodelledRegister a)

/-- The location must not be Flags: the instruction writes flags (10_state.md R42; 60_exceptions.md R194 (7)). -/
def mustNotBeFlags (c : Config) (a : Addr12) : Result Unit :=
  if regClass c a = .flags then .refused .flagsAsDestination else .next ()

/-- RegRead (R61). -/
def regRead (s : State) (a : Addr12) : Result Byte :=
  andThen (mustBeModelled s.cfg a) fun _ =>
    if unwritten s a then .fault (.unwrittenRegister a) else .next (regVal s a)

/-- RegWrite (R62). -/
def regWrite (s : State) (a : Addr12) (v : Byte) : Result State :=
  andThen (mustBeModelled s.cfg a) fun _ => .next (regPut s a v)

/-- RP, to address an operand (70_reset_and_hazards.md R222). -/
def rpOf (s : State) : Result Byte :=
  if s.undef.rp then .fault (.unwrittenRegister s.cfg.rpAddr) else .next s.rp

/-- The flags, for an instruction that reads those of the set `m` (70_reset_and_hazards.md R222). -/
def flagsFor (s : State) (m : Flags) : Result Flags :=
  if flagsMeet s.undef.flags m then .fault (.unwrittenRegister s.cfg.flagsAddr) else .next s.flags

/-- SPH and SPL, read at the default addresses of R8 (R43). -/
def State.sph (s : State) : Byte := regVal s 0xFFE

def State.spl (s : State) : Byte := regVal s 0xFFF

/-- The address of the byte after an instruction of `n` bytes, modulo 2^16 (R16, R30). -/
def nextPc (s : State) (n : Nat) : Addr16 := s.pc + BitVec.ofNat 16 n

/-- Leave the instruction: pc <- next (R29). -/
def advance (s : State) (n : Nat) : State := s.setPc (nextPc s n)

/-- The target of a relative address: next + sext_16(RA), modulo 2^16 (30_encoding.md R101). -/
def relTarget (s : State) (n : Nat) (ra : Byte) : Addr16 := nextPc s n + ra.signExtend 16

end Sys2Proof.Machine
end

