-- ==== Sys2Proof/Machine/Operands.lean ====
section
/-! DEFINITION. The operand forms (30_encoding.md R95 to R100) and the reading of an instruction's operands in
the order of 60_exceptions.md R194. Every address uses RP of before the instruction (R16, R229). -/

namespace Sys2Proof.Machine

/-- A register operand (R19). -/
inductive Loc where
  /-- r: working register -/
  | r (n : Nibble)
  /-- R: 8-bit register address -/
  | R (b : Byte)
  /-- ER: 12-bit register address -/
  | ER (e : Addr12)
  /-- Ir: indirect through a working register -/
  | Ir (n : Nibble)
  /-- IR: indirect through a register given by 8-bit address -/
  | IR (b : Byte)
deriving DecidableEq, Repr

/-- A source operand: a register operand, or IM (R95), a byte used as it stands. -/
inductive Src where
  | loc (l : Loc)
  | im (v : Byte)
deriving DecidableEq, Repr

/-- wr(n) = { RP[3:0], RP[7:4], n }: the address of working register `n` (10_state.md R22). -/
def wr (rp : Byte) (n : Nibble) : Addr12 := rp.extractLsb' 0 4 ++ rp.extractLsb' 4 4 ++ n

/-- ea_R (R97): an 8-bit address with high nibble Eh names a working register, else the Page Pointer supplies
bits 11:8. -/
def eaR (rp b : Byte) : Addr12 :=
  if b.extractLsb' 4 4 = 0xE then wr rp (b.extractLsb' 0 4) else rp.extractLsb' 0 4 ++ b

/-- ea_ER (R98): high byte EEh names a working register, which reads RP; the rest of Page E is refused (D5). -/
def eaER (rp : Result Byte) (e : Addr12) : Result Addr12 :=
  if e.extractLsb' 4 8 = 0xEE then andThen rp fun p => .next (wr p (e.extractLsb' 0 4))
  else if e.extractLsb' 8 4 = 0xE then .refused .escapedPageE
  else .next e

/-- ea_ind (R99): the location an 8-bit pointer names on the current page; high nibble Eh is refused (D17). -/
def eaInd (rp p : Byte) : Result Addr12 :=
  if p.extractLsb' 4 4 = 0xE then .refused .indirectEscape else .next (rp.extractLsb' 0 4 ++ p)

/-- The address of a register operand; Ir and IR read their pointer (R96 to R100). -/
def resolve (s : State) : Loc → Result Addr12
  | .r n => andThen (rpOf s) fun rp => .next (wr rp n)
  | .R b => andThen (rpOf s) fun rp => .next (eaR rp b)
  | .ER e => eaER (rpOf s) e
  | .Ir n => andThen (rpOf s) fun rp => andThen (regRead s (wr rp n)) (eaInd rp)
  | .IR b => andThen (rpOf s) fun rp => andThen (regRead s (eaR rp b)) (eaInd rp)

/-- The operands of an instruction as it starts: destination address, destination value, source value. -/
structure Operands where
  da : Addr12
  a  : Byte
  b  : Byte
deriving DecidableEq, Repr

/-- The operands of an instruction that writes flags, in the order of R194: both addresses, destination first; both
locations modelled; the destination not Flags (R42); then the destination's value and the source's (R63). -/
def operands (s : State) (dst : Loc) (src : Src) : Result Operands :=
  andThen (resolve s dst) fun da =>
    match src with
    | .im v =>
      andThen (mustBeModelled s.cfg da) fun _ =>
        andThen (mustNotBeFlags s.cfg da) fun _ =>
          andThen (regRead s da) fun a => .next ⟨da, a, v⟩
    | .loc l =>
      andThen (resolve s l) fun sa =>
        andThen (mustBeModelled s.cfg da) fun _ =>
          andThen (mustBeModelled s.cfg sa) fun _ =>
            andThen (mustNotBeFlags s.cfg da) fun _ =>
              andThen (regRead s da) fun a => andThen (regRead s sa) fun b => .next ⟨da, a, b⟩

/-- An instruction that stores `f a b` in its destination and sets the flags to `fl a b` of the old ones, which
defines those of the set `d` (40_arithmetic.md R113 to R121). -/
def storeResult (f : Byte → Byte → Byte) (fl : Byte → Byte → Flags → Flags) (d : Flags) (len : Nat) (dst : Loc)
    (src : Src) (s : State) : Result State :=
  andThen (operands s dst src) fun o =>
    andThen (regWrite s o.da (f o.a o.b)) fun t => .next (advance (putFlags t (fl o.a o.b s.flags) d) len)

/-- An instruction that only sets the flags, to those of the logical result `f a b` (41_logical_and_test.md R137
to R141): nothing is written to the Register File. -/
def testResult (f : Byte → Byte → Byte) (len : Nat) (dst : Loc) (src : Src) (s : State) : Result State :=
  andThen (operands s dst src) fun o =>
    .next (advance (putFlags s (logicFlags (f o.a o.b) s.flags) logicDefines) len)

end Sys2Proof.Machine
end

