-- ==== Sys2Proof/Machine/Arithmetic.lean ====
section
/-! DEFINITION. ADD, ADDX and DA (40_arithmetic.md). -/

namespace Sys2Proof.Machine

/-- Every ADD and ADDX form: destination <- destination + source, modulo 2^8, flags by add8 (R110, R111). -/
def addResult (len : Nat) (dst : Loc) (src : Src) (s : State) : Result State :=
  storeResult (fun a b => a + b) addFlags addDefines len dst src s

/-- R113 -/
def execAdd_r_r (d r : Nibble) (s : State) : Result State := addResult 2 (.r d) (.loc (.r r)) s

/-- R114 -/
def execAdd_r_Ir (d r : Nibble) (s : State) : Result State := addResult 2 (.r d) (.loc (.Ir r)) s

/-- R115 -/
def execAdd_R_R (db sb : Byte) (s : State) : Result State := addResult 3 (.R db) (.loc (.R sb)) s

/-- R116 -/
def execAdd_R_IR (db sb : Byte) (s : State) : Result State := addResult 3 (.R db) (.loc (.IR sb)) s

/-- R117 -/
def execAdd_R_IM (db im : Byte) (s : State) : Result State := addResult 3 (.R db) (.im im) s

/-- R118 -/
def execAdd_IR_IM (db im : Byte) (s : State) : Result State := addResult 3 (.IR db) (.im im) s

/-- R119 -/
def execAddx_ER_ER (e1 e2 : Addr12) (s : State) : Result State := addResult 4 (.ER e1) (.loc (.ER e2)) s

/-- R120 -/
def execAddx_ER_IM (e1 : Addr12) (im : Byte) (s : State) : Result State := addResult 4 (.ER e1) (.im im) s

/-- A row of the table "DA adjustment" (R122): D and C and H before, the ranges of v[7:4] and v[3:0], what is
added and C after. -/
structure DaRow where
  d       : Bool
  c       : Bool
  hiFirst : Nat
  hiLast  : Nat
  h       : Bool
  loFirst : Nat
  loLast  : Nat
  add     : Byte
  carry   : Bool
deriving DecidableEq, Repr

/-- The table "DA adjustment" of R122, row for row. -/
def daTable : List DaRow :=
  [⟨false, false, 0x0, 0x9, false, 0x0, 0x9, 0x00, false⟩,
   ⟨false, false, 0x0, 0x8, false, 0xA, 0xF, 0x06, false⟩,
   ⟨false, false, 0x0, 0x9, true,  0x0, 0x3, 0x06, false⟩,
   ⟨false, false, 0xA, 0xF, false, 0x0, 0x9, 0x60, true⟩,
   ⟨false, false, 0x9, 0xF, false, 0xA, 0xF, 0x66, true⟩,
   ⟨false, false, 0xA, 0xF, true,  0x0, 0x3, 0x66, true⟩,
   ⟨false, true,  0x0, 0x2, false, 0x0, 0x9, 0x60, true⟩,
   ⟨false, true,  0x0, 0x2, false, 0xA, 0xF, 0x66, true⟩,
   ⟨false, true,  0x0, 0x3, true,  0x0, 0x3, 0x66, true⟩,
   ⟨true,  false, 0x0, 0x9, false, 0x0, 0x9, 0x00, false⟩,
   ⟨true,  false, 0x0, 0x8, true,  0x6, 0xF, 0xFA, false⟩,
   ⟨true,  true,  0x7, 0xF, false, 0x0, 0x9, 0xA0, true⟩,
   ⟨true,  true,  0x6, 0xF, true,  0x6, 0xF, 0x9A, true⟩]

/-- The row matches (D, C, v[7:4], H, v[3:0]). -/
def daRowMatches (f : Flags) (v : Byte) (r : DaRow) : Bool :=
  let hi := (v.extractLsb' 4 4).toNat
  let lo := (v.extractLsb' 0 4).toNat
  r.d == f.d && r.c == f.c && r.h == f.h &&
    decide (r.hiFirst ≤ hi) && decide (hi ≤ r.hiLast) && decide (r.loFirst ≤ lo) && decide (lo ≤ r.loLast)

def daRowOf (f : Flags) (v : Byte) : Option DaRow := daTable.find? (daRowMatches f v)

/-- The flags after DA: C from the row, Z and S of the result, V a free value (log 8), D and H unchanged. -/
def daFlags (row : DaRow) (res : Byte) (draw : Nat) (f : Flags) : Flags :=
  { f with c := row.carry, z := res == 0, s := res.getLsbD 7, v := Config.freeV draw }

/-- The row of the operand's value; an input of no row is refused (R122). -/
def daRowFor (f : Flags) (v : Byte) : Result DaRow :=
  match daRowOf f v with
  | none => .refused .daInputNotBcd
  | some row => .next row

/-- Both DA forms (R122): the operand is adjusted by its row. DEDUCED (log 9): D, C and H are read after the operand,
and must be defined. -/
def decimalAdjust (dst : Loc) (s : State) : Result State :=
  andThen (resolve s dst) fun da =>
    andThen (mustBeModelled s.cfg da) fun _ =>
      andThen (mustNotBeFlags s.cfg da) fun _ =>
        andThen (regRead s da) fun v =>
          andThen (flagsFor s daReads) fun f =>
            andThen (daRowFor f v) fun row =>
              andThen (regWrite s da (v + row.add)) fun t =>
                .next (advance ((putFlags t (daFlags row (v + row.add) s.draws f) daDefines).setDraws (s.draws + 1)) 2)

/-- R122, Op Code 40 -/
def execDa_R (db : Byte) (s : State) : Result State := decimalAdjust (.R db) s

/-- R122, Op Code 41 -/
def execDa_IR (db : Byte) (s : State) : Result State := decimalAdjust (.IR db) s

end Sys2Proof.Machine
end

