-- ==== Sys2Proof/Machine/CpuControl.lean ====
section
/-! DEFINITION. SRP (44_cpu_control.md). -/

namespace Sys2Proof.Machine

/-- R180: RP <- im. Every value is accepted; the new window holds from the next instruction. -/
def execSrp (im : Byte) (s : State) : Result State := .next (advance (putRp s im) 2)

end Sys2Proof.Machine
end

