-- ==== Sys2Proof/Machine/Load.lean ====
section
/-! DEFINITION. LD r,IM and LDWX (42_load.md). -/

namespace Sys2Proof.Machine

/-- R150: x[d] <- im; nothing is read and no flag changes, unless the register is the Flags location. -/
def execLd_r_IM (d : Nibble) (im : Byte) (s : State) : Result State :=
  andThen (resolve s (.r d)) fun a => andThen (regWrite s a im) fun t => .next (advance t 2)

/-- R152: both addresses must be even (D13). -/
def mustBeEven (da sa : Addr12) : Result Unit :=
  if da.getLsbD 0 || sa.getLsbD 0 then .refused .ldwxOddAddress else .next ()

/-- R152, R153: the byte at the source and the byte after it go to the destination and the byte after it. Both
addresses are resolved first, with the old RP; the stops come in the order of 60_exceptions.md R194 (log 16). -/
def execLdwx_ER_ER (e1 e2 : Addr12) (s : State) : Result State :=
  andThen (resolve s (.ER e1)) fun da =>
    andThen (resolve s (.ER e2)) fun sa =>
      andThen (mustBeEven da sa) fun _ =>
        andThen (mustBeModelled s.cfg da) fun _ =>
          andThen (mustBeModelled s.cfg (da + 1)) fun _ =>
            andThen (mustBeModelled s.cfg sa) fun _ =>
              andThen (mustBeModelled s.cfg (sa + 1)) fun _ =>
                andThen (regRead s sa) fun hi =>
                  andThen (regRead s (sa + 1)) fun lo =>
                    andThen (regWrite s da hi) fun t =>
                      andThen (regWrite t (da + 1) lo) fun u => .next (advance u 5)

end Sys2Proof.Machine
end

