-- ==== Sys2Proof/Machine/Logical.lean ====
section
/-! DEFINITION. AND, TCMX and TMX (41_logical_and_test.md). -/

namespace Sys2Proof.Machine

/-- Every AND form: destination <- destination & source, logic flags of the result (R130). -/
def andResult (len : Nat) (dst : Loc) (src : Src) (s : State) : Result State :=
  storeResult (fun a b => a &&& b) (fun a b => logicFlags (a &&& b)) logicDefines len dst src s

/-- R131 -/
def execAnd_r_r (d r : Nibble) (s : State) : Result State := andResult 2 (.r d) (.loc (.r r)) s

/-- R132 -/
def execAnd_r_Ir (d r : Nibble) (s : State) : Result State := andResult 2 (.r d) (.loc (.Ir r)) s

/-- R133 -/
def execAnd_R_R (db sb : Byte) (s : State) : Result State := andResult 3 (.R db) (.loc (.R sb)) s

/-- R134 -/
def execAnd_R_IR (db sb : Byte) (s : State) : Result State := andResult 3 (.R db) (.loc (.IR sb)) s

/-- R135 -/
def execAnd_R_IM (db im : Byte) (s : State) : Result State := andResult 3 (.R db) (.im im) s

/-- R136 -/
def execAnd_IR_IM (db im : Byte) (s : State) : Result State := andResult 3 (.IR db) (.im im) s

/-- The value TCMX tests: (~dst) & src (R137). -/
def complementUnderMask (a b : Byte) : Byte := ~~~a &&& b

/-- R137 -/
def execTcmx_ER_ER (e1 e2 : Addr12) (s : State) : Result State :=
  testResult complementUnderMask 4 (.ER e1) (.loc (.ER e2)) s

/-- R138 -/
def execTcmx_ER_IM (e1 : Addr12) (im : Byte) (s : State) : Result State :=
  testResult complementUnderMask 4 (.ER e1) (.im im) s

/-- The value TMX tests: dst & src (R140). -/
def underMask (a b : Byte) : Byte := a &&& b

/-- R140 -/
def execTmx_ER_ER (e1 e2 : Addr12) (s : State) : Result State :=
  testResult underMask 4 (.ER e1) (.loc (.ER e2)) s

/-- R141 -/
def execTmx_ER_IM (e1 : Addr12) (im : Byte) (s : State) : Result State :=
  testResult underMask 4 (.ER e1) (.im im) s

end Sys2Proof.Machine
end

