-- ==== Sys2Proof/Machine/ProgramControl.lean ====
section
/-! DEFINITION. BRK, DJNZ, JR cc and JP cc (43_program_control.md). -/

namespace Sys2Proof.Machine

/-- R161: by BRK_MODE, the end of the run or a no-operation. -/
def execBrk (s : State) : Result State :=
  match s.cfg.brkMode with
  | .stop => .fault .brk
  | .nop => .next (advance s 1)

/-- R163: the working register counts down, modulo 2^8, and the jump is taken while it is not zero. No flag of its
own: Z does not reflect the decrement. -/
def execDjnz (d : Nibble) (ra : Byte) (s : State) : Result State :=
  andThen (resolve s (.r d)) fun a =>
    andThen (regRead s a) fun x =>
      andThen (regWrite s a (x - 1)) fun t =>
        .next (t.setPc (if x - 1 ≠ 0 then relTarget s 2 ra else nextPc s 2))

/-- R165 -/
def execJr (cc : Cond) (ra : Byte) (s : State) : Result State :=
  andThen (flagsFor s (condReads cc)) fun f =>
    .next (s.setPc (if condHolds f cc then relTarget s 2 ra else nextPc s 2))

/-- R168 -/
def execJp (cc : Cond) (da16 : Addr16) (s : State) : Result State :=
  andThen (flagsFor s (condReads cc)) fun f => .next (s.setPc (if condHolds f cc then da16 else nextPc s 3))

end Sys2Proof.Machine
end

