-- ==== Sys2Proof/Machine/Dispatch.lean ====
section
/-! DEFINITION. The dispatch: one arm per constructor of Instr, one meaning each. -/

namespace Sys2Proof.Machine

def exec (i : Instr) (s : State) : Host.Outcome State Fault Refusal :=
  match i with
  | .brk => Sys2Proof.Machine.execBrk s
  | .srp im => Sys2Proof.Machine.execSrp im s
  | .add_r_r d r => Sys2Proof.Machine.execAdd_r_r d r s
  | .add_r_Ir d r => Sys2Proof.Machine.execAdd_r_Ir d r s
  | .add_R_R db sb => Sys2Proof.Machine.execAdd_R_R db sb s
  | .add_R_IR db sb => Sys2Proof.Machine.execAdd_R_IR db sb s
  | .add_R_IM db im => Sys2Proof.Machine.execAdd_R_IM db im s
  | .add_IR_IM db im => Sys2Proof.Machine.execAdd_IR_IM db im s
  | .addx_ER_ER e1 e2 => Sys2Proof.Machine.execAddx_ER_ER e1 e2 s
  | .addx_ER_IM e1 im => Sys2Proof.Machine.execAddx_ER_IM e1 im s
  | .djnz d ra => Sys2Proof.Machine.execDjnz d ra s
  | .jr cc ra => Sys2Proof.Machine.execJr cc ra s
  | .ld_r_IM d im => Sys2Proof.Machine.execLd_r_IM d im s
  | .ldwx_ER_ER e1 e2 => Sys2Proof.Machine.execLdwx_ER_ER e1 e2 s
  | .tcmx_ER_ER e1 e2 => Sys2Proof.Machine.execTcmx_ER_ER e1 e2 s
  | .tcmx_ER_IM e1 im => Sys2Proof.Machine.execTcmx_ER_IM e1 im s
  | .tmx_ER_ER e1 e2 => Sys2Proof.Machine.execTmx_ER_ER e1 e2 s
  | .tmx_ER_IM e1 im => Sys2Proof.Machine.execTmx_ER_IM e1 im s
  | .and_r_r d r => Sys2Proof.Machine.execAnd_r_r d r s
  | .and_r_Ir d r => Sys2Proof.Machine.execAnd_r_Ir d r s
  | .and_R_R db sb => Sys2Proof.Machine.execAnd_R_R db sb s
  | .and_R_IR db sb => Sys2Proof.Machine.execAnd_R_IR db sb s
  | .and_R_IM db im => Sys2Proof.Machine.execAnd_R_IM db im s
  | .and_IR_IM db im => Sys2Proof.Machine.execAnd_IR_IM db im s
  | .da_R db => Sys2Proof.Machine.execDa_R db s
  | .da_IR db => Sys2Proof.Machine.execDa_IR db s
  | .jp cc da16 => Sys2Proof.Machine.execJp cc da16 s

end Sys2Proof.Machine
end

