-- ==== Sys2Proof/Decode.lean ====
section
/-! DEFINITION. Decoding (30_encoding.md): from the bytes of an instruction, byte 0 first, to the instruction or a
refusal by name; the length table of R81; and the encoder, written from the same formats R82 to R93. -/

namespace Sys2Proof

/-- Bits 7:4 of a byte. -/
def hiNibble (b : Byte) : Nibble := b.extractLsb' 4 4

/-- Bits 3:0 of a byte. -/
def loNibble (b : Byte) : Nibble := b.extractLsb' 0 4

/-- The byte `{h, l}` (R13). -/
def nibbles (h l : Nibble) : Byte := h ++ l

/-- The condition code of a 4-bit field (10_state.md R39). -/
def Cond.ofBits (n : Nibble) : Cond :=
  match n.toNat with
  | 0x0 => .f
  | 0x1 => .lt
  | 0x2 => .le
  | 0x3 => .ule
  | 0x4 => .ov
  | 0x5 => .mi
  | 0x6 => .z
  | 0x7 => .c
  | 0x8 => .t
  | 0x9 => .ge
  | 0xA => .gt
  | 0xB => .ugt
  | 0xC => .nov
  | 0xD => .pl
  | 0xE => .nz
  | _   => .nc

/-- The 4-bit field of a condition code. -/
def Cond.toBits : Cond → Nibble
  | .f => 0x0
  | .lt => 0x1
  | .le => 0x2
  | .ule => 0x3
  | .ov => 0x4
  | .mi => 0x5
  | .z => 0x6
  | .c => 0x7
  | .t => 0x8
  | .ge => 0x9
  | .gt => 0xA
  | .ugt => 0xB
  | .nov => 0xC
  | .pl => 0xD
  | .nz => 0xE
  | .nc => 0xF

/-- What the decoder answers. -/
inductive Decoded where
  /-- an instruction, and the bytes after it -/
  | instr (i : Instr) (rest : List Byte)
  /-- R103, R106: no Op Code of the map; the Op Code bytes seen -/
  | unknownOpCode (bytes : List Byte)
  /-- R104: byte 2 bits 7:4 of an ER,IM form are not 0h -/
  | reservedOperandBits
  /-- the list ends before the instruction does -/
  | moreBytes
deriving DecidableEq, Repr

/-- One operand byte. -/
def operand1 (t : List Byte) (mk : Byte → Instr) : Decoded :=
  match t with
  | b1 :: rest => .instr (mk b1) rest
  | [] => .moreBytes

/-- Two operand bytes. -/
def operand2 (t : List Byte) (mk : Byte → Byte → Instr) : Decoded :=
  match t with
  | b1 :: b2 :: rest => .instr (mk b1 b2) rest
  | _ => .moreBytes

/-- The three operand bytes of two 12-bit addresses (R87, R91): source `{o1, o2[7:4]}`, destination
`{o2[3:0], o3}`; `mk` takes the destination first. -/
def operandErEr (t : List Byte) (mk : Addr12 → Addr12 → Instr) : Decoded :=
  match t with
  | o1 :: o2 :: o3 :: rest => .instr (mk (loNibble o2 ++ o3) (o1 ++ hiNibble o2)) rest
  | _ => .moreBytes

/-- The three operand bytes of a 12-bit destination and an immediate (R88); R104 refuses a non-zero nibble. -/
def operandErIm (t : List Byte) (mk : Addr12 → Byte → Instr) : Decoded :=
  match t with
  | o1 :: o2 :: o3 :: rest =>
    if hiNibble o2 = 0 then .instr (mk (loNibble o2 ++ o3) o1) rest else .reservedOperandBits
  | _ => .moreBytes

/-- A row from general knowledge (R10): decoded only if admitted, else an unknown Op Code. -/
def ifAdmitted (admitGk : Bool) (b0 : Byte) (d : Decoded) : Decoded :=
  if admitGk then d else .unknownOpCode [b0]

/-- The Op Code map of R102, over the formats R82 to R93. -/
def decode (admitGk : Bool) : List Byte → Decoded
  | [] => .moreBytes
  | b0 :: t =>
    match (loNibble b0).toNat with
    | 0xA => operand1 t (.djnz (hiNibble b0))
    | 0xB => operand1 t (.jr (Cond.ofBits (hiNibble b0)))
    | 0xC => operand1 t (.ld_r_IM (hiNibble b0))
    | 0xD => ifAdmitted admitGk b0 (operand2 t fun h l => .jp (Cond.ofBits (hiNibble b0)) (h ++ l))
    | _ =>
      match b0.toNat with
      | 0x00 => .instr .brk t
      | 0x01 => operand1 t .srp
      | 0x02 => operand1 t fun b => .add_r_r (hiNibble b) (loNibble b)
      | 0x03 => operand1 t fun b => .add_r_Ir (hiNibble b) (loNibble b)
      | 0x04 => operand2 t fun sb db => .add_R_R db sb
      | 0x05 => operand2 t fun sb db => .add_R_IR db sb
      | 0x06 => operand2 t fun db im => .add_R_IM db im
      | 0x07 => operand2 t fun db im => .add_IR_IM db im
      | 0x08 => operandErEr t .addx_ER_ER
      | 0x09 => operandErIm t .addx_ER_IM
      | 0x1F =>
        match t with
        | [] => .moreBytes
        | b1 :: t' => if b1 = 0xE8 then operandErEr t' .ldwx_ER_ER else .unknownOpCode [b0, b1]
      | 0x40 => ifAdmitted admitGk b0 (operand1 t .da_R)
      | 0x41 => ifAdmitted admitGk b0 (operand1 t .da_IR)
      | 0x52 => ifAdmitted admitGk b0 (operand1 t fun b => .and_r_r (hiNibble b) (loNibble b))
      | 0x53 => ifAdmitted admitGk b0 (operand1 t fun b => .and_r_Ir (hiNibble b) (loNibble b))
      | 0x54 => ifAdmitted admitGk b0 (operand2 t fun sb db => .and_R_R db sb)
      | 0x55 => ifAdmitted admitGk b0 (operand2 t fun sb db => .and_R_IR db sb)
      | 0x56 => ifAdmitted admitGk b0 (operand2 t fun db im => .and_R_IM db im)
      | 0x57 => ifAdmitted admitGk b0 (operand2 t fun db im => .and_IR_IM db im)
      | 0x68 => operandErEr t .tcmx_ER_ER
      | 0x69 => operandErIm t .tcmx_ER_IM
      | 0x78 => operandErEr t .tmx_ER_ER
      | 0x79 => operandErIm t .tmx_ER_IM
      | _ => .unknownOpCode [b0]

/-- The length table of R81, from byte 0 and, after the prefix 1Fh, byte 1 (R106). `none`: no Op Code of the
map. After 1Fh the second byte must be in the list. -/
def instrLength (admitGk : Bool) : List Byte → Option Nat
  | [] => none
  | b0 :: t =>
    match (loNibble b0).toNat with
    | 0xA | 0xB | 0xC => some 2
    | 0xD => if admitGk then some 3 else none
    | _ =>
      match b0.toNat with
      | 0x00 => some 1
      | 0x01 | 0x02 | 0x03 => some 2
      | 0x04 | 0x05 | 0x06 | 0x07 => some 3
      | 0x08 | 0x09 | 0x68 | 0x69 | 0x78 | 0x79 => some 4
      | 0x1F => if t.head? = some 0xE8 then some 5 else none
      | 0x40 | 0x41 | 0x52 | 0x53 => if admitGk then some 2 else none
      | 0x54 | 0x55 | 0x56 | 0x57 => if admitGk then some 3 else none
      | _ => none

/-- The operand bytes of R87: `ER2[11:4]`, `{ER2[3:0], ER1[11:8]}`, `ER1[7:0]`. -/
def encodeErEr (e1 e2 : Addr12) : List Byte :=
  [e2.extractLsb' 4 8, nibbles (e2.extractLsb' 0 4) (e1.extractLsb' 8 4), e1.extractLsb' 0 8]

/-- The operand bytes of R88: `IM`, `{0h, ER1[11:8]}`, `ER1[7:0]`. -/
def encodeErIm (e1 : Addr12) (im : Byte) : List Byte :=
  [im, nibbles 0 (e1.extractLsb' 8 4), e1.extractLsb' 0 8]

/-- The bytes of an instruction, byte 0 (lowest program address) first. -/
def encode : Instr → List Byte
  | .brk => [0x00]
  | .srp im => [0x01, im]
  | .add_r_r d s => [0x02, nibbles d s]
  | .add_r_Ir d s => [0x03, nibbles d s]
  | .add_R_R db sb => [0x04, sb, db]
  | .add_R_IR db sb => [0x05, sb, db]
  | .add_R_IM db im => [0x06, db, im]
  | .add_IR_IM db im => [0x07, db, im]
  | .addx_ER_ER e1 e2 => 0x08 :: encodeErEr e1 e2
  | .addx_ER_IM e1 im => 0x09 :: encodeErIm e1 im
  | .djnz d ra => [nibbles d 0xA, ra]
  | .jr cc ra => [nibbles cc.toBits 0xB, ra]
  | .ld_r_IM d im => [nibbles d 0xC, im]
  | .ldwx_ER_ER e1 e2 => 0x1F :: 0xE8 :: encodeErEr e1 e2
  | .tcmx_ER_ER e1 e2 => 0x68 :: encodeErEr e1 e2
  | .tcmx_ER_IM e1 im => 0x69 :: encodeErIm e1 im
  | .tmx_ER_ER e1 e2 => 0x78 :: encodeErEr e1 e2
  | .tmx_ER_IM e1 im => 0x79 :: encodeErIm e1 im
  | .and_r_r d s => [0x52, nibbles d s]
  | .and_r_Ir d s => [0x53, nibbles d s]
  | .and_R_R db sb => [0x54, sb, db]
  | .and_R_IR db sb => [0x55, sb, db]
  | .and_R_IM db im => [0x56, db, im]
  | .and_IR_IM db im => [0x57, db, im]
  | .da_R db => [0x40, db]
  | .da_IR db => [0x41, db]
  | .jp cc da16 => [nibbles cc.toBits 0xD, da16.extractLsb' 8 8, da16.extractLsb' 0 8]

/-- The length of an instruction in bytes: Table 26's fetch cycles where it gives them (R80, R81). -/
def Instr.length : Instr → Nat
  | .brk => 1
  | .srp _ | .add_r_r _ _ | .add_r_Ir _ _ | .djnz _ _ | .jr _ _ | .ld_r_IM _ _
  | .and_r_r _ _ | .and_r_Ir _ _ | .da_R _ | .da_IR _ => 2
  | .add_R_R _ _ | .add_R_IR _ _ | .add_R_IM _ _ | .add_IR_IM _ _
  | .and_R_R _ _ | .and_R_IR _ _ | .and_R_IM _ _ | .and_IR_IM _ _ | .jp _ _ => 3
  | .addx_ER_ER _ _ | .addx_ER_IM _ _ | .tcmx_ER_ER _ _ | .tcmx_ER_IM _ _ | .tmx_ER_ER _ _ | .tmx_ER_IM _ _ => 4
  | .ldwx_ER_ER _ _ => 5

/-- The longest instruction (R80). -/
def maxLength : Nat := 5

/-- The bytes of a number of `nbits` bits, most significant byte first, then zeros up to the longest instruction:
opcode_table.json numbers an instruction as one number with byte 0 most significant (log 12). -/
def tableBytes (nbits w : Nat) : List Byte :=
  let n := nbits / 8
  (List.range maxLength).map fun k => if k < n then BitVec.ofNat 8 (w / 256 ^ (n - 1 - k)) else 0

/-- The instruction the decoder reads from a word of opcode_table.json, every row admitted. -/
def decodeTableWord (nbits w : Nat) : Option Instr :=
  match decode true (tableBytes nbits w) with
  | .instr i _ => some i
  | .unknownOpCode _ | .reservedOperandBits | .moreBytes => none

end Sys2Proof
end

