-- ==== Sys2Proof/WellFormed.lean ====
section
/-! DEFINITION. Well-formed instructions: those whose operand fields alone do not already refuse them. Every
instruction has an encoding and is decoded; an ill-formed one completes in no state (30_encoding.md R98, 42_load.md
R152). -/

namespace Sys2Proof

/-- A 12-bit operand that R98 resolves: a plain address outside Page E, or the escape EEh. -/
def erNamable (e : Addr12) : Bool :=
  e.extractLsb' 8 4 != 0xE || e.extractLsb' 4 8 == 0xEE

/-- An operand of LDWX whose resolved address is even (R152): for a plain operand the address is the operand, for
an escaped one its bit 0 is the register number's. -/
def pairEven (e : Addr12) : Bool := !e.getLsbD 0

/-- Ill-formed: a 12-bit operand in Page E that is no escape, or an odd LDWX operand. -/
def Instr.wellFormed : Instr → Bool
  | .addx_ER_ER e1 e2 | .tcmx_ER_ER e1 e2 | .tmx_ER_ER e1 e2 => erNamable e1 && erNamable e2
  | .addx_ER_IM e1 _ | .tcmx_ER_IM e1 _ | .tmx_ER_IM e1 _ => erNamable e1
  | .ldwx_ER_ER e1 e2 => erNamable e1 && erNamable e2 && pairEven e1 && pairEven e2
  | .brk | .srp _ | .djnz _ _ | .jr _ _ | .ld_r_IM _ _ | .jp _ _
  | .add_r_r _ _ | .add_r_Ir _ _ | .add_R_R _ _ | .add_R_IR _ _ | .add_R_IM _ _ | .add_IR_IM _ _
  | .and_r_r _ _ | .and_r_Ir _ _ | .and_R_R _ _ | .and_R_IR _ _ | .and_R_IM _ _ | .and_IR_IM _ _
  | .da_R _ | .da_IR _ => true

/-- The rows whose Op Code no source prints (R10): admitted only with `admitGkRows`. -/
def Instr.fromGk : Instr → Bool
  | .and_r_r _ _ | .and_r_Ir _ _ | .and_R_R _ _ | .and_R_IR _ _ | .and_R_IM _ _ | .and_IR_IM _ _
  | .da_R _ | .da_IR _ | .jp _ _ => true
  | .brk | .srp _ | .djnz _ _ | .jr _ _ | .ld_r_IM _ _ | .ldwx_ER_ER _ _
  | .add_r_r _ _ | .add_r_Ir _ _ | .add_R_R _ _ | .add_R_IR _ _ | .add_R_IM _ _ | .add_IR_IM _ _
  | .addx_ER_ER _ _ | .addx_ER_IM _ _ | .tcmx_ER_ER _ _ | .tcmx_ER_IM _ _ | .tmx_ER_ER _ _ | .tmx_ER_IM _ _ => false

end Sys2Proof
end

