-- ==== Sys2Proof/Machine/Fetch.lean ====
section
/-! DEFINITION. The fetch of an instruction (00_scope.md R16 points 1 and 2; 60_exceptions.md R194 points 1 to 3)
and the placing of bytes in program memory. -/

namespace Sys2Proof.Machine

/-- The bytes that tell the length: byte 0, and byte 1 after the prefix 1Fh (30_encoding.md R81, R106). -/
def fetchOpCode (s : State) : Result (List Byte) :=
  andThen (memRead s s.pc 1) fun op => if op = [0x1F] then memRead s s.pc 2 else .next op

/-- The decoder's answer as an outcome. -/
def decodedOutcome (bytes : List Byte) : Decoded → Result Instr
  | .instr i _ => .next i
  | .unknownOpCode op => .refused (.unknownOpCode op)
  | .reservedOperandBits => .refused .reservedOperandBits
  | .moreBytes => .refused (.unknownOpCode bytes)

/-- Fetch and decode at pc. At END_PC the run is over: nothing is fetched (70_reset_and_hazards.md R227). -/
def fetch (s : State) : Result Instr :=
  if s.cfg.endPc = some s.pc then .fault .endOfRun
  else
    andThen (fetchOpCode s) fun op =>
      match instrLength s.cfg.admitGkRows op with
      | none => .refused (.unknownOpCode op)
      | some n => andThen (memRead s s.pc n) fun bytes => decodedOutcome bytes (decode s.cfg.admitGkRows bytes)

/-- Bytes placed in program memory from address `a` up; none past FFFFh. -/
def placeBytes (m : List Host.Cell) (a : Nat) : List Byte → List Host.Cell
  | [] => m
  | b :: t => if a < 65536 then placeBytes (progWrite m a b) (a + 1) t else m

/-- The bytes are an instruction that the fetch reads only with ADMIT_GK_ROWS (00_scope.md R10). -/
def needsGkRows (bytes : List Byte) : Bool :=
  match decode true bytes with
  | .instr i _ => i.fromGk
  | .unknownOpCode _ | .reservedOperandBits | .moreBytes => false

/-- A launch with bytes at pc: they are placed there, and a row from general knowledge is admitted (log 5). -/
def launchWith (s : State) (bytes : List Byte) : State :=
  (s.setProg (placeBytes s.prog s.pc.toNat bytes)).setCfg
    { s.cfg with admitGkRows := s.cfg.admitGkRows || needsGkRows bytes }

end Sys2Proof.Machine
end

