-- ==== Sys2Proof/Machine/Step.lean ====
section
/-! DEFINITION. One step of the CPU (00_scope.md R16). -/

namespace Sys2Proof.Machine

/-- Fetch, then the rule of the instruction. -/
def step (s : State) : Host.Outcome State Fault Refusal := andThen (fetch s) fun i => exec i s

/-- The state with an instruction word of opcode_table.json at pc, zero bytes after it up to the longest
instruction, admitted where it is a row from general knowledge: it stands for the launch state (log 5, log 13). -/
def State.withFetchWord (s : State) (nbits w : Nat) : State :=
  launchWith s (tableBytes nbits w)

end Sys2Proof.Machine
end

