-- ==== Sys2Proof/Machine/Timing.lean ====
section
/-! DEFINITION. The cycle counts of Table 26 (70_reset_and_hazards.md R230, R231): data that no step reads. The
machine has no clock (log 11). -/

namespace Sys2Proof.Machine

/-- Execution cycles: one number, or two by whether the decremented value is zero ("Z/NZ 3/4", R231). -/
inductive ExecCycles where
  | always (n : Nat)
  | byZero (ifZero ifNonZero : Nat)
deriving DecidableEq, Repr

structure Cycles where
  fetch : Nat
  instr : ExecCycles
deriving DecidableEq, Repr

/-- The table "Cycle counts" of R230: Op Codes 00 to 0C, and no other (R233). -/
def cyclesOf : Instr → Option Cycles
  | .brk => some ⟨1, .always 2⟩
  | .srp _ => some ⟨2, .always 2⟩
  | .add_r_r _ _ => some ⟨2, .always 3⟩
  | .add_r_Ir _ _ => some ⟨2, .always 4⟩
  | .add_R_R _ _ => some ⟨3, .always 3⟩
  | .add_R_IR _ _ => some ⟨3, .always 4⟩
  | .add_R_IM _ _ => some ⟨3, .always 3⟩
  | .add_IR_IM _ _ => some ⟨3, .always 4⟩
  | .addx_ER_ER _ _ => some ⟨4, .always 3⟩
  | .addx_ER_IM _ _ => some ⟨4, .always 3⟩
  | .djnz d _ => if d = 0 then some ⟨2, .byZero 3 4⟩ else none
  | .jr cc _ => if cc = .f then some ⟨2, .always 2⟩ else none
  | .ld_r_IM d _ => if d = 0 then some ⟨2, .always 2⟩ else none
  | .ldwx_ER_ER _ _ | .tcmx_ER_ER _ _ | .tcmx_ER_IM _ _ | .tmx_ER_ER _ _ | .tmx_ER_IM _ _ => none
  | .and_r_r _ _ | .and_r_Ir _ _ | .and_R_R _ _ | .and_R_IR _ _ | .and_R_IM _ _ | .and_IR_IM _ _ => none
  | .da_R _ | .da_IR _ | .jp _ _ => none

/-- The execution cycles of an instruction at a state, where R230 gives them: DJNZ by its decremented value. -/
def execCycles (i : Instr) (s : State) : Option Nat :=
  match cyclesOf i, i with
  | none, _ => none
  | some ⟨_, .always n⟩, _ => some n
  | some ⟨_, .byZero z nz⟩, .djnz d _ => some (if regVal s (wr s.rp d) - 1 = 0 then z else nz)
  | some ⟨_, .byZero _ nz⟩, _ => some nz

end Sys2Proof.Machine
end

