-- ==== Sys2Proof/Safety.lean ====
section
/-! DEFINITION. The terms claims are made in: how a run ends (70_reset_and_hazards.md R227), the invariant of the
state, what an instruction writes, and the flag table of 10_state.md R38. -/

namespace Sys2Proof.Machine

/-! ### The end of a run -/

/-- A run, seen after some steps. -/
inductive RunEnd where
  /-- not over -/
  | running (s : State)
  /-- over, and final -/
  | final (s : State)
  /-- over and not final: a fault, a refusal, or a Break the claim did not name -/
  | notFinal (s : State)
deriving DecidableEq, Repr

/-- A run of at most `n` steps (R227). `namedBreak`: the address of the BRK the claim names as its end, if any. -/
def runEnd (namedBreak : Option Addr16) : Nat → State → RunEnd
  | 0, s => .running s
  | n + 1, s =>
    match step s with
    | .next t => runEnd namedBreak n t
    | .fault .endOfRun => .final s
    | .fault .brk => if namedBreak = some s.pc then .final s else .notFinal s
    | .fault .fetchOutsideProgramMemory => .notFinal s
    | .fault (.unprogrammedByte _) => .notFinal s
    | .fault (.unwrittenRegister _) => .notFinal s
    | .refused _ => .notFinal s

/-! ### The invariant -/

/-- The location has storage of its own: not RP, not Flags, and modelled (R8). -/
def hasStorage (c : Config) (a : Addr12) : Bool :=
  match regClass c a with
  | .ram | .sph | .spl => true
  | .rp | .flags | .device | .absent => false

/-- Only locations with storage of their own are listed in the Register File storage. -/
def storageOnly (s : State) : Bool := s.regs.all fun c => hasStorage s.cfg (BitVec.ofNat 12 c.1)

/-- The invariant: both memories in canonical form, and nothing stored where there is no storage. -/
def Inv (s : State) : Prop := Memory.wf s = true ∧ storageOnly s = true

/-- Everything holds a value: RP, every flag, every location of storage (70_reset_and_hazards.md R221). -/
def AllDefined (s : State) : Prop := s.undef = Undef.nothing ∧ s.cfg.blank ≠ none

/-- What the fault unwrittenRegister names (R222): RP undefined, by its address; a flag undefined, by the address of
Flags; or a location that nothing has written. -/
def undefinedAt (s : State) (a : Addr12) : Bool :=
  (s.undef.rp && a == s.cfg.rpAddr) || (flagsMeet s.undef.flags allFlags && a == s.cfg.flagsAddr) ||
    (modelled s.cfg a && unwritten s a)

/-- The fault names something undefined. -/
def UnwrittenFault (s : State) (f : Fault) : Prop := ∃ a, f = .unwrittenRegister a ∧ undefinedAt s a = true

/-! ### Places -/

/-- A location an instruction that writes flags may have as its destination: readable, and not Flags (R42, R61). -/
def resultPlace (s : State) (a : Addr12) : Bool := readable s a && regClass s.cfg a != .flags

/-- The operands of the ADD and ADDX forms (R113 to R120). -/
def addForm : Instr → Option (Loc × Src)
  | .add_r_r d r => some (.r d, .loc (.r r))
  | .add_r_Ir d r => some (.r d, .loc (.Ir r))
  | .add_R_R db sb => some (.R db, .loc (.R sb))
  | .add_R_IR db sb => some (.R db, .loc (.IR sb))
  | .add_R_IM db im => some (.R db, .im im)
  | .add_IR_IM db im => some (.IR db, .im im)
  | .addx_ER_ER e1 e2 => some (.ER e1, .loc (.ER e2))
  | .addx_ER_IM e1 im => some (.ER e1, .im im)
  | .brk | .srp _ | .djnz _ _ | .jr _ _ | .jp _ _ | .ld_r_IM _ _ | .ldwx_ER_ER _ _ => none
  | .tcmx_ER_ER _ _ | .tcmx_ER_IM _ _ | .tmx_ER_ER _ _ | .tmx_ER_IM _ _ => none
  | .and_r_r _ _ | .and_r_Ir _ _ | .and_R_R _ _ | .and_R_IR _ _ | .and_R_IM _ _ | .and_IR_IM _ _ => none
  | .da_R _ | .da_IR _ => none

/-- The operands of the AND forms (R131 to R136). -/
def andForm : Instr → Option (Loc × Src)
  | .and_r_r d r => some (.r d, .loc (.r r))
  | .and_r_Ir d r => some (.r d, .loc (.Ir r))
  | .and_R_R db sb => some (.R db, .loc (.R sb))
  | .and_R_IR db sb => some (.R db, .loc (.IR sb))
  | .and_R_IM db im => some (.R db, .im im)
  | .and_IR_IM db im => some (.IR db, .im im)
  | .brk | .srp _ | .djnz _ _ | .jr _ _ | .jp _ _ | .ld_r_IM _ _ | .ldwx_ER_ER _ _ => none
  | .add_r_r _ _ | .add_r_Ir _ _ | .add_R_R _ _ | .add_R_IR _ _ | .add_R_IM _ _ | .add_IR_IM _ _ => none
  | .addx_ER_ER _ _ | .addx_ER_IM _ _ => none
  | .tcmx_ER_ER _ _ | .tcmx_ER_IM _ _ | .tmx_ER_ER _ _ | .tmx_ER_IM _ _ => none
  | .da_R _ | .da_IR _ => none

/-- The operands of the TCMX and TMX forms (R137 to R141). -/
def testForm : Instr → Option (Loc × Src)
  | .tcmx_ER_ER e1 e2 | .tmx_ER_ER e1 e2 => some (.ER e1, .loc (.ER e2))
  | .tcmx_ER_IM e1 im | .tmx_ER_IM e1 im => some (.ER e1, .im im)
  | .brk | .srp _ | .djnz _ _ | .jr _ _ | .jp _ _ | .ld_r_IM _ _ | .ldwx_ER_ER _ _ => none
  | .add_r_r _ _ | .add_r_Ir _ _ | .add_R_R _ _ | .add_R_IR _ _ | .add_R_IM _ _ | .add_IR_IM _ _ => none
  | .addx_ER_ER _ _ | .addx_ER_IM _ _ => none
  | .and_r_r _ _ | .and_r_Ir _ _ | .and_R_R _ _ | .and_R_IR _ _ | .and_R_IM _ _ | .and_IR_IM _ _ => none
  | .da_R _ | .da_IR _ => none

/-- The operands of an instruction that reads a destination and a source and sets the flags. -/
def operandForm (i : Instr) : Option (Loc × Src) := ((addForm i).or (andForm i)).or (testForm i)

/-- The operand of the DA forms (R122). -/
def daForm : Instr → Option Loc
  | .da_R db => some (.R db)
  | .da_IR db => some (.IR db)
  | .brk | .srp _ | .djnz _ _ | .jr _ _ | .jp _ _ | .ld_r_IM _ _ | .ldwx_ER_ER _ _ => none
  | .add_r_r _ _ | .add_r_Ir _ _ | .add_R_R _ _ | .add_R_IR _ _ | .add_R_IM _ _ | .add_IR_IM _ _ => none
  | .addx_ER_ER _ _ | .addx_ER_IM _ _ => none
  | .tcmx_ER_ER _ _ | .tcmx_ER_IM _ _ | .tmx_ER_ER _ _ | .tmx_ER_IM _ _ => none
  | .and_r_r _ _ | .and_r_Ir _ _ | .and_R_R _ _ | .and_R_IR _ _ | .and_R_IM _ _ | .and_IR_IM _ _ => none

/-- The address of a register operand, if it resolves. -/
def placeOf (s : State) (l : Loc) : List Addr12 :=
  match resolve s l with
  | .next a => [a]
  | .fault _ => []
  | .refused _ => []

/-- The Register File locations an instruction writes as its destination, from the state before it. SRP's RP is
named apart. -/
def writes (s : State) : Instr → List Addr12
  | .add_r_r d _ | .add_r_Ir d _ | .and_r_r d _ | .and_r_Ir d _ | .djnz d _ | .ld_r_IM d _ => placeOf s (.r d)
  | .add_R_R db _ | .add_R_IR db _ | .add_R_IM db _ | .and_R_R db _ | .and_R_IR db _ | .and_R_IM db _
  | .da_R db => placeOf s (.R db)
  | .add_IR_IM db _ | .and_IR_IM db _ | .da_IR db => placeOf s (.IR db)
  | .addx_ER_ER e1 _ | .addx_ER_IM e1 _ => placeOf s (.ER e1)
  | .ldwx_ER_ER e1 _ => (placeOf s (.ER e1)).flatMap fun a => [a, a + 1]
  | .brk | .srp _ | .jr _ _ | .jp _ _ => []
  | .tcmx_ER_ER _ _ | .tcmx_ER_IM _ _ | .tmx_ER_ER _ _ | .tmx_ER_IM _ _ => []

/-- The location an indirect operand takes its pointer from (R99, R100). -/
def pointerOf (s : State) : Loc → List Addr12
  | .Ir n => placeOf s (.r n)
  | .IR b => placeOf s (.R b)
  | .r _ | .R _ | .ER _ => []

/-- The locations a register operand is read from: its pointer's and its own. -/
def operandReads (s : State) (l : Loc) : List Addr12 := pointerOf s l ++ placeOf s l

def sourceReads (s : State) : Src → List Addr12
  | .loc l => operandReads s l
  | .im _ => []

/-- The Register File locations an instruction reads, from the state before it. -/
def reads (s : State) (i : Instr) : List Addr12 :=
  match operandForm i, daForm i, i with
  | some (dst, src), _, _ => operandReads s dst ++ sourceReads s src
  | none, some dst, _ => operandReads s dst
  | none, none, .djnz d _ => placeOf s (.r d)
  | none, none, .ldwx_ER_ER _ e2 => (placeOf s (.ER e2)).flatMap fun a => [a, a + 1]
  | none, none, _ => []

/-! ### Results -/

/-- The instruction completes: it answers a next state with `v` at `a`, the flags `f` and the pc past it. -/
def CompletesWith (i : Instr) (s : State) (a : Addr12) (v : Byte) (f : Flags) : Prop :=
  ∃ t, exec i s = .next t ∧ regRead t a = .next v ∧ t.flags = f ∧ t.pc = s.pc + BitVec.ofNat 16 i.length

/-! ### The flag table (R38) -/

/-- What an instruction does to a flag: kept (-), cleared (0), written from the result (*), or left open. -/
inductive FlagEffect where
  | kept
  | cleared
  | written
  | unspecified
deriving DecidableEq, Repr

/-- A row of the table "Flag effects", columns C Z S V D H. -/
structure FlagRow where
  c : FlagEffect
  z : FlagEffect
  s : FlagEffect
  v : FlagEffect
  d : FlagEffect
  h : FlagEffect
deriving DecidableEq, Repr

/-- The table "Flag effects" of R38. -/
def flagRow : Instr → FlagRow
  | .add_r_r _ _ | .add_r_Ir _ _ | .add_R_R _ _ | .add_R_IR _ _ | .add_R_IM _ _ | .add_IR_IM _ _
  | .addx_ER_ER _ _ | .addx_ER_IM _ _ => ⟨.written, .written, .written, .written, .cleared, .written⟩
  | .tcmx_ER_ER _ _ | .tcmx_ER_IM _ _ | .tmx_ER_ER _ _ | .tmx_ER_IM _ _
  | .and_r_r _ _ | .and_r_Ir _ _ | .and_R_R _ _ | .and_R_IR _ _ | .and_R_IM _ _ | .and_IR_IM _ _ =>
    ⟨.kept, .written, .written, .cleared, .kept, .kept⟩
  | .da_R _ | .da_IR _ => ⟨.written, .written, .written, .unspecified, .kept, .kept⟩
  | .brk | .srp _ | .djnz _ _ | .jr _ _ | .jp _ _ | .ld_r_IM _ _ | .ldwx_ER_ER _ _ =>
    ⟨.kept, .kept, .kept, .kept, .kept, .kept⟩

/-- A flag's change from `old` to `new` is one the effect allows. -/
def effectAllows (e : FlagEffect) (old new : Bool) : Bool :=
  match e with
  | .kept => new == old
  | .cleared => !new
  | .written => true
  | .unspecified => true

/-- The flags after are ones the row allows; no row touches F2 and F1 (R41). -/
def rowAllows (r : FlagRow) (f g : Flags) : Bool :=
  effectAllows r.c f.c g.c && effectAllows r.z f.z g.z && effectAllows r.s f.s g.s && effectAllows r.v f.v g.v &&
    effectAllows r.d f.d g.d && effectAllows r.h f.h g.h && g.f2 == f.f2 && g.f1 == f.f1

/-- A flag that was undefined (`old`) is undefined after (`new`) exactly where the effect keeps the flag (R222). -/
def effectDefines (e : FlagEffect) (old new : Bool) : Bool :=
  match e with
  | .kept => new == old
  | .cleared | .written | .unspecified => !new

/-- The same for the eight bits: `u` undefined before, `w` after. -/
def rowDefines (r : FlagRow) (u w : Flags) : Bool :=
  effectDefines r.c u.c w.c && effectDefines r.z u.z w.z && effectDefines r.s u.s w.s && effectDefines r.v u.v w.v &&
    effectDefines r.d u.d w.d && effectDefines r.h u.h w.h && w.f2 == u.f2 && w.f1 == u.f1

/-- The decimal value of a packed BCD byte. -/
def bcdValue (b : Byte) : Nat := 10 * (b.extractLsb' 4 4).toNat + (b.extractLsb' 0 4).toNat

/-- Both digits are decimal. -/
def isBcd (b : Byte) : Bool := decide ((b.extractLsb' 4 4).toNat ≤ 9) && decide ((b.extractLsb' 0 4).toNat ≤ 9)

end Sys2Proof.Machine
end

