-- ==== Sys2Proof/Certificates/Slice0/Obligations.lean ====
section
/-! DEFINITION. The statements for the provers, from the numbered rules of spec/. "Modelled" is a location of class
ram, rp, flags, sph or spl; "readable" one that is modelled and not undefined; a "result place" a readable location
other than Flags; "RP known" says that RP is not undefined. -/

open Sys2Proof Sys2Proof.Machine

/-! ### Encoding -/

/-- R82 to R93: the decoder reads back every instruction with every operand, and leaves the bytes after it; the
rows the source prints need no admission (R10). -/
def Obligations.DecodeOfEncode : Prop :=
  ∀ (i : Instr) (rest : List Byte),
    decode true (encode i ++ rest) = .instr i rest ∧
    (i.fromGk = false → decode false (encode i ++ rest) = .instr i rest)

/-- R82 to R93, R10: bytes that decode to an instruction are its encoding, bit for bit, and a general-knowledge row
is decoded only when admitted. -/
def Obligations.DecodedBytesAreTheEncoding : Prop :=
  ∀ (gk : Bool) (bs rest : List Byte) (i : Instr),
    decode gk bs = .instr i rest → bs = encode i ++ rest ∧ (i.fromGk = true → gk = true)

/-- R80, R81, R106: the length table gives every admitted instruction the length of its encoding, 1 to 5, and it
knows exactly the Op Codes the map knows. -/
def Obligations.LengthTableAgreesWithFormats : Prop :=
  (∀ (gk : Bool) (i : Instr) (rest : List Byte), (i.fromGk = true → gk = true) →
    instrLength gk (encode i ++ rest) = some (encode i).length ∧ 1 ≤ (encode i).length ∧ (encode i).length ≤ 5) ∧
  (∀ (gk : Bool) (b0 b1 b2 b3 b4 : Byte),
    instrLength gk [b0, b1, b2, b3, b4] = none ↔ ∃ op, decode gk [b0, b1, b2, b3, b4] = .unknownOpCode op)

/-- R87: source = {byte1, byte2[7:4]}, destination = {byte2[3:0], byte3}, for ADDX, TCMX and TMX, and the operand
bytes of the source's table; with the three object codes the rule is checked against. -/
def Obligations.ExtendedAddressFormat : Prop :=
  (∀ (gk : Bool) (b1 b2 b3 : Byte),
    decode gk [0x08, b1, b2, b3] =
      .instr (.addx_ER_ER (b2.extractLsb' 0 4 ++ b3) (b1 ++ b2.extractLsb' 4 4)) [] ∧
    decode gk [0x68, b1, b2, b3] =
      .instr (.tcmx_ER_ER (b2.extractLsb' 0 4 ++ b3) (b1 ++ b2.extractLsb' 4 4)) [] ∧
    decode gk [0x78, b1, b2, b3] =
      .instr (.tmx_ER_ER (b2.extractLsb' 0 4 ++ b3) (b1 ++ b2.extractLsb' 4 4)) []) ∧
  (∀ e1 e2 : Addr12,
    encode (.addx_ER_ER e1 e2) =
      [0x08, e2.extractLsb' 4 8, e2.extractLsb' 0 4 ++ e1.extractLsb' 8 4, e1.extractLsb' 0 8] ∧
    encode (.tcmx_ER_ER e1 e2) =
      [0x68, e2.extractLsb' 4 8, e2.extractLsb' 0 4 ++ e1.extractLsb' 8 4, e1.extractLsb' 0 8] ∧
    encode (.tmx_ER_ER e1 e2) =
      [0x78, e2.extractLsb' 4 8, e2.extractLsb' 0 4 ++ e1.extractLsb' 8 4, e1.extractLsb' 0 8]) ∧
  encode (.addx_ER_ER 0x634 0xB12) = [0x08, 0xB1, 0x26, 0x34] ∧
  encode (.tcmx_ER_ER 0xDD4 0x420) = [0x68, 0x42, 0x0D, 0xD4] ∧
  encode (.tmx_ER_ER 0x789 0x246) = [0x78, 0x24, 0x67, 0x89]

/-- R88: immediate = byte 1, destination = {byte2[3:0], byte3}, byte 2 bits 7:4 are 0h, for ADDX, TCMX and TMX, and
the operand bytes of the source's table; with the two examples the rule is checked against. -/
def Obligations.ImmediateAddressFormat : Prop :=
  (∀ (gk : Bool) (im b2 b3 : Byte),
    decode gk [0x09, im, b2, b3] =
      (if b2.extractLsb' 4 4 = 0 then .instr (.addx_ER_IM (b2.extractLsb' 0 4 ++ b3) im) []
       else .reservedOperandBits) ∧
    decode gk [0x69, im, b2, b3] =
      (if b2.extractLsb' 4 4 = 0 then .instr (.tcmx_ER_IM (b2.extractLsb' 0 4 ++ b3) im) []
       else .reservedOperandBits) ∧
    decode gk [0x79, im, b2, b3] =
      (if b2.extractLsb' 4 4 = 0 then .instr (.tmx_ER_IM (b2.extractLsb' 0 4 ++ b3) im) []
       else .reservedOperandBits)) ∧
  (∀ (e1 : Addr12) (im : Byte),
    encode (.addx_ER_IM e1 im) = [0x09, im, (0 : Nibble) ++ e1.extractLsb' 8 4, e1.extractLsb' 0 8] ∧
    encode (.tcmx_ER_IM e1 im) = [0x69, im, (0 : Nibble) ++ e1.extractLsb' 8 4, e1.extractLsb' 0 8] ∧
    encode (.tmx_ER_IM e1 im) = [0x79, im, (0 : Nibble) ++ e1.extractLsb' 8 4, e1.extractLsb' 0 8]) ∧
  encode (.tmx_ER_IM 0x013 0x02) = [0x79, 0x02, 0x00, 0x13] ∧
  encode (.tcmx_ER_IM 0xB52 0x02) = [0x69, 0x02, 0x0B, 0x52]

/-- Words written out by hand from the formats, one a family, decode to what they stand for (95_test_vectors.md);
the misprinted 66 (conflict C1) does not decode. -/
def Obligations.WrittenWordsDecode : Prop :=
  decode true [0x08, 0xB1, 0x26, 0x34] = .instr (.addx_ER_ER 0x634 0xB12) [] ∧
  decode true [0x03, 0x23] = .instr (.add_r_Ir 2 3) [] ∧
  decode true [0x69, 0x02, 0x0B, 0x52] = .instr (.tcmx_ER_IM 0xB52 0x02) [] ∧
  decode true [0x56, 0xEF, 0xDF] = .instr (.and_R_IM 0xEF 0xDF) [] ∧
  decode true [0x1F, 0xE8, 0x23, 0x43, 0x46] = .instr (.ldwx_ER_ER 0x346 0x234) [] ∧
  decode true [0xFC, 0xDF] = .instr (.ld_r_IM 15 0xDF) [] ∧
  decode true [0x5B, 0x04] = .instr (.jr .mi 0x04) [] ∧
  decode true [0x3D, 0x12, 0x34] = .instr (.jp .ule 0x1234) [] ∧
  decode true [0x3A, 0xFE] = .instr (.djnz 3 0xFE) [] ∧
  decode true [0x01, 0x20] = .instr (.srp 0x20) [] ∧
  decode true [0x41, 0x40] = .instr (.da_IR 0x40) [] ∧
  decode true [0x66, 0x02, 0x0B, 0x52] = .unknownOpCode [0x66]

/-! ### The step -/

/-- R16: when the bytes at pc are an instruction i, the step is exec of i at the same state; the step itself adds
nothing: pc <- next is part of each meaning. -/
def Obligations.StepRunsDecodedInstruction : Prop :=
  ∀ (s : State) (bs : List Byte) (i : Instr),
    s.cfg.endPc ≠ some s.pc → memRead s s.pc bs.length = .next bs →
    decode s.cfg.admitGkRows bs = .instr i [] → step s = exec i s

/-- R103: byte 0 outside the table of R81 (with and without the general-knowledge rows), and 1Fh followed by a byte
other than E8h, refuse the step by name. -/
def Obligations.UnknownOpCodesRefused : Prop :=
  ∀ (s : State) (b0 b1 : Byte), s.cfg.endPc ≠ some s.pc →
    (memRead s s.pc 1 = .next [b0] →
      b0.toNat % 16 ∉ [0xA, 0xB, 0xC] → b0.toNat ∉ [0, 1, 2, 3, 4, 5, 6, 7, 8, 9, 0x1F, 0x68, 0x69, 0x78, 0x79] →
      (s.cfg.admitGkRows = true →
        b0.toNat % 16 ≠ 0xD ∧ b0.toNat ∉ [0x40, 0x41, 0x52, 0x53, 0x54, 0x55, 0x56, 0x57]) →
      step s = .refused (.unknownOpCode [b0])) ∧
    (memRead s s.pc 2 = .next [0x1F, b1] → b1 ≠ 0xE8 → step s = .refused (.unknownOpCode [0x1F, b1]))

/-- R104: an instruction 09, 69 or 79 whose byte 2 has a non-zero high nibble refuses the step. -/
def Obligations.ReservedOperandBitsRefused : Prop :=
  ∀ (s : State) (b0 im b2 b3 : Byte), s.cfg.endPc ≠ some s.pc →
    b0 = 0x09 ∨ b0 = 0x69 ∨ b0 = 0x79 → memRead s s.pc 4 = .next [b0, im, b2, b3] →
    b2.extractLsb' 4 4 ≠ 0 → step s = .refused .reservedOperandBits

/-- R53: MemRead gives the n bytes at addr, addr+1, ... in that order, and faults if any of these addresses is at or
beyond PROG_SIZE or past FFFFh. -/
def Obligations.ProgramReadWithinBounds : Prop :=
  ∀ (s : State) (addr : Addr16) (n : Nat), 1 ≤ n →
    ((∃ k, k < n ∧ (s.cfg.progSize ≤ addr.toNat + k ∨ 0xFFFF < addr.toNat + k)) →
      memRead s addr n = .fault .fetchOutsideProgramMemory) ∧
    (∀ bs : List Byte, bs.length = n →
      (∀ k, k < n → addr.toNat + k < s.cfg.progSize ∧ addr.toNat + k ≤ 0xFFFF ∧
        cellFind s.prog (addr.toNat + k) = bs[k]?) →
      memRead s addr n = .next bs)

/-- R30, R169, R194 (1): a fetch at or beyond PROG_SIZE, one whose instruction would run past PROG_SIZE or FFFFh, and
one of the prefix 1Fh whose second byte would be there, faults, whatever the instruction's other bytes. -/
def Obligations.FetchPastTheEndFaults : Prop :=
  ∀ s : State, s.cfg.endPc ≠ some s.pc →
    (s.cfg.progSize ≤ s.pc.toNat → step s = .fault .fetchOutsideProgramMemory) ∧
    (memRead s s.pc 1 = .next [0x1F] → (s.cfg.progSize < s.pc.toNat + 2 ∨ 0x10000 < s.pc.toNat + 2) →
      step s = .fault .fetchOutsideProgramMemory) ∧
    (∀ (op : List Byte) (n : Nat), fetchOpCode s = .next op → instrLength s.cfg.admitGkRows op = some n →
      (s.cfg.progSize < s.pc.toNat + n ∨ 0x10000 < s.pc.toNat + n) → step s = .fault .fetchOutsideProgramMemory)

/-- R227: the run is over at pc = END_PC, where nothing is fetched or executed, and only there by this name (the
model's own, log 7). -/
def Obligations.RunEndsExactlyAtEndPc : Prop :=
  ∀ s : State, step s = .fault .endOfRun ↔ s.cfg.endPc = some s.pc

/-- R227: how a run that has steps left ends: final at END_PC and at a Break whose address the claim names; over and
not final at a Break it does not name, at any other fault and at a refusal; else it goes on from the next state. -/
def Obligations.RunEndings : Prop :=
  ∀ (named : Option Addr16) (n : Nat) (s : State),
    (s.cfg.endPc = some s.pc → runEnd named (n + 1) s = .final s) ∧
    (step s = .fault .brk → named = some s.pc → runEnd named (n + 1) s = .final s) ∧
    (step s = .fault .brk → named ≠ some s.pc → runEnd named (n + 1) s = .notFinal s) ∧
    (∀ f, step s = .fault f → f ≠ .brk → f ≠ .endOfRun → runEnd named (n + 1) s = .notFinal s) ∧
    (∀ q, step s = .refused q → runEnd named (n + 1) s = .notFinal s) ∧
    (∀ t, step s = .next t → runEnd named (n + 1) s = runEnd named n t) ∧
    (∀ t, runEnd named n s = .final t → t.cfg.endPc = some t.pc ∨ (named = some t.pc ∧ step t = .fault .brk))

/-- R190, R161, R222: an instruction faults only as BRK in stop mode does, or on something undefined; where everything
is defined (as State.reset has it by the model's choice, log 1) only BRK faults. Every other fault is the fetch's. -/
def Obligations.OnlyBrkFaults : Prop :=
  ∀ (i : Instr) (s : State) (f : Fault), exec i s = .fault f →
    ((i = .brk ∧ s.cfg.brkMode = .stop ∧ f = .brk) ∨ UnwrittenFault s f) ∧ (AllDefined s → i = .brk ∧ f = .brk)

/-- R161: BRK by BRK_MODE (Op Code 00, 1 fetch and 2 execution cycles): the Break, or only pc <- next; at 0100h the latter leaves pc = 0101h. -/
def Obligations.BrkFollowsItsMode : Prop :=
  encode .brk = [0x00] ∧ cyclesOf .brk = some ⟨1, .always 2⟩ ∧
  (∀ s : State,
    (s.cfg.brkMode = .stop → exec .brk s = .fault .brk) ∧
    (s.cfg.brkMode = .nop → exec .brk s = .next { s with pc := s.pc + 1 })) ∧
  (∀ s : State, s.cfg.brkMode = .nop → s.pc = 0x0100 → exec .brk s = .next { s with pc := 0x0101 })

/-! ### Operands -/

/-- R22: the address of working register n, field by field, with the rule's examples, and the operand EE3h. -/
def Obligations.WorkingRegisterWindow : Prop :=
  (∀ (rp : Byte) (n : Nibble),
    (wr rp n).extractLsb' 8 4 = rp.extractLsb' 0 4 ∧ (wr rp n).extractLsb' 4 4 = rp.extractLsb' 4 4 ∧
    (wr rp n).extractLsb' 0 4 = n) ∧
  (∀ (s : State) (n : Nibble), s.undef.rp = false → resolve s (.r n) = .next (wr s.rp n)) ∧
  (∀ s : State, s.undef.rp = false → resolve s (.ER 0xEE3) = .next (wr s.rp 3) ∧ resolve s (.ER 0xEE2) = .next (wr s.rp 2)) ∧
  wr 0x20 0 = 0x020 ∧ wr 0x12 0 = 0x210 ∧ wr 0x12 15 = 0x21F ∧ wr 0xE3 5 = 0x3E5

/-- R98: high byte EEh names a working register; the rest of Page E is refused; any other operand is the address. -/
def Obligations.EscapedOperandAddress : Prop :=
  ∀ (s : State) (e : Addr12),
    (s.undef.rp = false → e.extractLsb' 4 8 = 0xEE → resolve s (.ER e) = .next (wr s.rp (e.extractLsb' 0 4))) ∧
    (e.extractLsb' 4 8 ≠ 0xEE → e.extractLsb' 8 4 = 0xE → resolve s (.ER e) = .refused .escapedPageE) ∧
    (e.extractLsb' 8 4 ≠ 0xE → resolve s (.ER e) = .next e)

/-- R97: an 8-bit address with high nibble Eh names a working register, any other takes the Page Pointer. -/
def Obligations.EightBitOperandAddress : Prop :=
  ∀ (s : State) (b : Byte), s.undef.rp = false →
    (b.extractLsb' 4 4 = 0xE → resolve s (.R b) = .next (wr s.rp (b.extractLsb' 0 4))) ∧
    (b.extractLsb' 4 4 ≠ 0xE → resolve s (.R b) = .next (s.rp.extractLsb' 0 4 ++ b))

/-- R99, R100: the pointer is the value of the named register; its place is {RP[3:0], pointer}; a pointer with high
nibble Eh is refused. -/
def Obligations.IndirectOperandAddress : Prop :=
  ∀ (s : State) (n : Nibble) (b p : Byte), s.undef.rp = false →
    (regRead s (wr s.rp n) = .next p →
      resolve s (.Ir n) = if p.extractLsb' 4 4 = 0xE then .refused .indirectEscape
        else .next (s.rp.extractLsb' 0 4 ++ p)) ∧
    (regRead s (eaR s.rp b) = .next p →
      resolve s (.IR b) = if p.extractLsb' 4 4 = 0xE then .refused .indirectEscape
        else .next (s.rp.extractLsb' 0 4 ++ p))

/-- R23, R108: a working register, its Enh and its EEnh operand are the same place. -/
def Obligations.OnePlaceThreeNames : Prop :=
  ∀ (s : State) (n : Nibble), s.undef.rp = false →
    resolve s (.r n) = .next (wr s.rp n) ∧
    resolve s (.R ((0xE : Nibble) ++ n)) = .next (wr s.rp n) ∧
    resolve s (.ER ((0xEE : Byte) ++ n)) = .next (wr s.rp n)

/-! ### The Register File -/

/-- R61, R62, R222: a modelled location, RP and Flags among them, reads as the byte last written, undefined before or
not. -/
def Obligations.RegisterWriteThenRead : Prop :=
  ∀ (s : State) (a : Addr12) (v : Byte), modelled s.cfg a = true →
    ∃ t, regWrite s a v = .next t ∧ regRead t a = .next v

/-- R61, R62: a write changes no other location and nothing else of the machine. -/
def Obligations.RegisterWriteLeavesTheRest : Prop :=
  ∀ (s t : State) (a : Addr12) (v : Byte), regWrite s a v = .next t →
    (∀ b, b ≠ a → regRead t b = regRead s b) ∧
    (a ≠ s.cfg.rpAddr → t.rp = s.rp ∧ t.undef.rp = s.undef.rp) ∧
    (a ≠ s.cfg.flagsAddr → t.flags = s.flags ∧ t.undef.flags = s.undef.flags) ∧
    t.pc = s.pc ∧ t.prog = s.prog ∧ t.draws = s.draws ∧ t.cfg = s.cfg

/-- R44, R61: a location of class device or absent is refused by name, read or written; no instruction that completes
has written or read one, pointers of Ir and IR among the reads, nor read one that is undefined. -/
def Obligations.UnmodelledLocationsRefused : Prop :=
  (∀ (s : State) (a : Addr12) (v : Byte), (regClass s.cfg a = .device ∨ regClass s.cfg a = .absent) →
    regRead s a = .refused (.unmodelledRegister a) ∧ regWrite s a v = .refused (.unmodelledRegister a)) ∧
  (∀ (i : Instr) (s t : State) (a : Addr12), exec i s = .next t → a ∈ writes s i ++ reads s i →
    regClass s.cfg a ≠ .device ∧ regClass s.cfg a ≠ .absent) ∧
  (∀ (i : Instr) (s t : State) (a : Addr12), exec i s = .next t → a ∈ reads s i → readable s a = true)

/-- R222: a value that is undefined faults when it is read: a location nothing has written, RP where an operand needs
it, the Flags location with any of its eight bits undefined, a flag that a condition code reads; codes 0h and 8h read
none. It does not fault when it is overwritten. ADD and ADDX define all six flags, AND, TCMX and TMX Z, S and V and
leave the others as they were, SRP defines RP. -/
def Obligations.UndefinedValuesFaultWhenRead : Prop :=
  (∀ (s : State) (a : Addr12), (regClass s.cfg a = .ram ∨ regClass s.cfg a = .sph ∨ regClass s.cfg a = .spl) →
    cellFind s.regs a.toNat = none → s.cfg.blank = none → regRead s a = .fault (.unwrittenRegister a)) ∧
  (∀ (s : State) (n : Nibble) (b : Byte), s.undef.rp = true →
    (∀ l ∈ [Loc.r n, .R b, .Ir n, .IR b, .ER ((0xEE : Byte) ++ n)],
      resolve s l = .fault (.unwrittenRegister s.cfg.rpAddr)) ∧
    (∀ e : Addr12, e.extractLsb' 8 4 ≠ 0xE → resolve s (.ER e) = .next e)) ∧
  (∀ s : State, s.undef.rp = true → regClass s.cfg s.cfg.rpAddr = .rp →
    regRead s s.cfg.rpAddr = .fault (.unwrittenRegister s.cfg.rpAddr)) ∧
  (∀ s : State, regClass s.cfg s.cfg.flagsAddr = .flags → s.undef.flags ≠ Flags.zero →
    regRead s s.cfg.flagsAddr = .fault (.unwrittenRegister s.cfg.flagsAddr)) ∧
  (∀ (s : State) (cc : Cond) (ra : Byte) (da16 : Addr16),
    let u := s.undef.flags
    ((u.v = true ∧ cc ∈ ([.lt, .le, .ov, .ge, .gt, .nov] : List Cond)) ∨
      (u.s = true ∧ cc ∈ ([.lt, .le, .mi, .ge, .gt, .pl] : List Cond)) ∨
      (u.z = true ∧ cc ∈ ([.le, .ule, .z, .gt, .ugt, .nz] : List Cond)) ∨
      (u.c = true ∧ cc ∈ ([.ule, .c, .ugt, .nc] : List Cond))) →
    exec (.jr cc ra) s = .fault (.unwrittenRegister s.cfg.flagsAddr) ∧
    exec (.jp cc da16) s = .fault (.unwrittenRegister s.cfg.flagsAddr)) ∧
  (∀ (s : State) (ra : Byte),
    (∃ t, exec (.jr .f ra) s = .next t) ∧ (∃ t, exec (.jr .t ra) s = .next t)) ∧
  (∀ (s : State) (a : Addr12) (v : Byte),
    (∀ f, regWrite s a v ≠ .fault f) ∧ ∀ t, regWrite s a v = .next t → readable t a = true) ∧
  (∀ (i : Instr) (s t : State), exec i s = .next t →
    (addForm i ≠ none → t.undef.flags = { Flags.zero with f2 := s.undef.flags.f2, f1 := s.undef.flags.f1 }) ∧
    (andForm i ≠ none ∨ testForm i ≠ none →
      t.undef.flags = { s.undef.flags with z := false, s := false, v := false }) ∧
    (∀ im, i = .srp im → t.undef.rp = false))

/-- R41: each bit of the Flags byte is its flag, and a byte written is the byte read. -/
def Obligations.FlagsByteLayout : Prop :=
  (∀ f : Flags,
    (flagsToByte f).getLsbD 7 = f.c ∧ (flagsToByte f).getLsbD 6 = f.z ∧ (flagsToByte f).getLsbD 5 = f.s ∧
    (flagsToByte f).getLsbD 4 = f.v ∧ (flagsToByte f).getLsbD 3 = f.d ∧ (flagsToByte f).getLsbD 2 = f.h ∧
    (flagsToByte f).getLsbD 1 = f.f2 ∧ (flagsToByte f).getLsbD 0 = f.f1 ∧ flagsOfByte (flagsToByte f) = f) ∧
  (∀ b : Byte, flagsToByte (flagsOfByte b) = b)

/-! ### Flags and conditions -/

/-- R111: add8 as the rule writes it, with the source's data point 2Eh + 1Bh = 49h. -/
def Obligations.AddEightAsWritten : Prop :=
  (∀ (a b : Byte) (f : Flags),
    let sum9 : BitVec 9 := a.zeroExtend 9 + b.zeroExtend 9
    let res : Byte := sum9.extractLsb' 0 8
    a + b = res ∧
    addFlags a b f =
      { c := sum9.getLsbD 8
        z := decide (res = 0x00)
        s := res.getLsbD 7
        v := decide (a.getLsbD 7 = b.getLsbD 7) && decide (res.getLsbD 7 ≠ a.getLsbD 7)
        d := false
        h := ((a.extractLsb' 0 4).zeroExtend 5 + (b.extractLsb' 0 4).zeroExtend 5 : BitVec 5).getLsbD 4
        f2 := f.f2
        f1 := f.f1 }) ∧
  ∀ f : Flags, (0x2E : Byte) + 0x1B = 0x49 ∧
    addFlags 0x2E 0x1B f = ⟨false, false, false, false, false, true, f.f2, f.f1⟩

/-- R110, R33 to R37: the flags after an addition, in integer arithmetic: C unsigned overflow, V signed overflow,
H carry from bit 3, Z and S of the result modulo 256. -/
def Obligations.AddFlagsAreIntegerArithmetic : Prop :=
  ∀ (a b : Byte) (f : Flags),
    (a + b).toNat = (a.toNat + b.toNat) % 256 ∧
    ((addFlags a b f).c = true ↔ 256 ≤ a.toNat + b.toNat) ∧
    ((addFlags a b f).z = true ↔ (a.toNat + b.toNat) % 256 = 0) ∧
    ((addFlags a b f).s = true ↔ 128 ≤ (a.toNat + b.toNat) % 256) ∧
    ((addFlags a b f).v = true ↔ a.toInt + b.toInt < -128 ∨ 127 < a.toInt + b.toInt) ∧
    ((addFlags a b f).h = true ↔ 16 ≤ a.toNat % 16 + b.toNat % 16) ∧
    (addFlags a b f).d = false ∧ (addFlags a b f).f2 = f.f2 ∧ (addFlags a b f).f1 = f.f1

/-- R39: the flag test of each of the sixteen codes; each code 8h + k is the negation of code k. -/
def Obligations.ConditionTests : Prop :=
  ∀ f : Flags,
    (condHolds f (Cond.ofBits 0x0) = false) ∧
    (condHolds f (Cond.ofBits 0x1) = true ↔ (f.s ^^ f.v) = true) ∧
    (condHolds f (Cond.ofBits 0x2) = true ↔ (f.z || (f.s ^^ f.v)) = true) ∧
    (condHolds f (Cond.ofBits 0x3) = true ↔ (f.c || f.z) = true) ∧
    (condHolds f (Cond.ofBits 0x4) = true ↔ f.v = true) ∧
    (condHolds f (Cond.ofBits 0x5) = true ↔ f.s = true) ∧
    (condHolds f (Cond.ofBits 0x6) = true ↔ f.z = true) ∧
    (condHolds f (Cond.ofBits 0x7) = true ↔ f.c = true) ∧
    (condHolds f (Cond.ofBits 0x8) = true) ∧
    (condHolds f (Cond.ofBits 0x9) = true ↔ (f.s ^^ f.v) = false) ∧
    (condHolds f (Cond.ofBits 0xA) = true ↔ (f.z || (f.s ^^ f.v)) = false) ∧
    (condHolds f (Cond.ofBits 0xB) = true ↔ f.c = false ∧ f.z = false) ∧
    (condHolds f (Cond.ofBits 0xC) = true ↔ f.v = false) ∧
    (condHolds f (Cond.ofBits 0xD) = true ↔ f.s = false) ∧
    (condHolds f (Cond.ofBits 0xE) = true ↔ f.z = false) ∧
    (condHolds f (Cond.ofBits 0xF) = true ↔ f.c = false) ∧
    ∀ k : Nibble, condHolds f (Cond.ofBits (k + 8)) = !condHolds f (Cond.ofBits k)

/-! ### Results: each says that its instructions complete, and with what -/

/-- R113, R114: ADD r,r and r,Ir, RP known. -/
def Obligations.AddWorkingRegisterForms : Prop :=
  ∀ (s : State) (d r : Nibble),
    let da := wr s.rp d
    let x := regVal s da
    let y := regVal s (wr s.rp r)
    s.undef.rp = false → resultPlace s da = true → readable s (wr s.rp r) = true →
    CompletesWith (.add_r_r d r) s da (x + y) (addFlags x y s.flags) ∧
    ∀ sa, eaInd s.rp y = .next sa → readable s sa = true →
      CompletesWith (.add_r_Ir d r) s da (x + regVal s sa) (addFlags x (regVal s sa) s.flags)

/-- R115, R116: ADD R,R and R,IR, RP known. -/
def Obligations.AddRegisterAddressForms : Prop :=
  ∀ (s : State) (db sb : Byte),
    let da := eaR s.rp db
    let x := regVal s da
    let y := regVal s (eaR s.rp sb)
    s.undef.rp = false → resultPlace s da = true → readable s (eaR s.rp sb) = true →
    CompletesWith (.add_R_R db sb) s da (x + y) (addFlags x y s.flags) ∧
    ∀ sa, eaInd s.rp y = .next sa → readable s sa = true →
      CompletesWith (.add_R_IR db sb) s da (x + regVal s sa) (addFlags x (regVal s sa) s.flags)

/-- R117, R118: ADD R,IM and IR,IM, RP known. -/
def Obligations.AddImmediateForms : Prop :=
  (∀ (s : State) (db im : Byte), s.undef.rp = false → resultPlace s (eaR s.rp db) = true →
    CompletesWith (.add_R_IM db im) s (eaR s.rp db) (regVal s (eaR s.rp db) + im)
      (addFlags (regVal s (eaR s.rp db)) im s.flags)) ∧
  (∀ (s : State) (db im : Byte) (da : Addr12), s.undef.rp = false → readable s (eaR s.rp db) = true →
    eaInd s.rp (regVal s (eaR s.rp db)) = .next da → resultPlace s da = true →
    CompletesWith (.add_IR_IM db im) s da (regVal s da + im) (addFlags (regVal s da) im s.flags))

/-- R119, R120: ADDX ER,ER and ER,IM, escaped operands included. -/
def Obligations.AddxForms : Prop :=
  ∀ (s : State) (e1 : Addr12) (da : Addr12), resolve s (.ER e1) = .next da → resultPlace s da = true →
    (∀ im : Byte, CompletesWith (.addx_ER_IM e1 im) s da (regVal s da + im) (addFlags (regVal s da) im s.flags)) ∧
    (∀ e2 sa : Addr12, resolve s (.ER e2) = .next sa → readable s sa = true →
      CompletesWith (.addx_ER_ER e1 e2) s da (regVal s da + regVal s sa)
        (addFlags (regVal s da) (regVal s sa) s.flags))

/-- R131 to R134, R130: AND r,r; r,Ir; R,R; R,IR, RP known. -/
def Obligations.AndRegisterForms : Prop :=
  (∀ (s : State) (d r : Nibble),
    let da := wr s.rp d
    let x := regVal s da
    let y := regVal s (wr s.rp r)
    s.undef.rp = false → resultPlace s da = true → readable s (wr s.rp r) = true →
    CompletesWith (.and_r_r d r) s da (x &&& y)
      { s.flags with z := decide (x &&& y = 0), s := x.getLsbD 7 && y.getLsbD 7, v := false } ∧
    ∀ sa, eaInd s.rp y = .next sa → readable s sa = true →
      CompletesWith (.and_r_Ir d r) s da (x &&& regVal s sa)
        { s.flags with z := decide (x &&& regVal s sa = 0), s := x.getLsbD 7 && (regVal s sa).getLsbD 7, v := false }) ∧
  (∀ (s : State) (db sb : Byte),
    let da := eaR s.rp db
    let x := regVal s da
    let y := regVal s (eaR s.rp sb)
    s.undef.rp = false → resultPlace s da = true → readable s (eaR s.rp sb) = true →
    CompletesWith (.and_R_R db sb) s da (x &&& y)
      { s.flags with z := decide (x &&& y = 0), s := x.getLsbD 7 && y.getLsbD 7, v := false } ∧
    ∀ sa, eaInd s.rp y = .next sa → readable s sa = true →
      CompletesWith (.and_R_IR db sb) s da (x &&& regVal s sa)
        { s.flags with z := decide (x &&& regVal s sa = 0), s := x.getLsbD 7 && (regVal s sa).getLsbD 7, v := false })

/-- R135, R136, R130, R142: AND R,IM and IR,IM; a mask clears the bits it holds 0 in and keeps the others. -/
def Obligations.AndImmediateForms : Prop :=
  ∀ (s : State) (db im : Byte), s.undef.rp = false →
    let pa := eaR s.rp db
    (resultPlace s pa = true →
      ∃ (t : State) (v : Byte), exec (.and_R_IM db im) s = .next t ∧ regRead t pa = .next v ∧
        (∀ k, k < 8 → v.getLsbD k = if im.getLsbD k then (regVal s pa).getLsbD k else false) ∧
        t.flags = { s.flags with z := decide (v = 0), s := v.getLsbD 7, v := false } ∧ t.pc = s.pc + 3) ∧
    (∀ da, readable s pa = true → eaInd s.rp (regVal s pa) = .next da → resultPlace s da = true →
      ∃ (t : State) (v : Byte), exec (.and_IR_IM db im) s = .next t ∧ regRead t da = .next v ∧
        (∀ k, k < 8 → v.getLsbD k = if im.getLsbD k then (regVal s da).getLsbD k else false) ∧
        t.flags = { s.flags with z := decide (v = 0), s := v.getLsbD 7, v := false } ∧ t.pc = s.pc + 3)

/-- R137, R138, R142: both TCMX forms set Z exactly when every selected bit of the destination is 1, S when bit 7 is
selected and 0, clear V, so define these three (R222), and change nothing else but pc. -/
def Obligations.TcmxTestsSelectedBitsForOne : Prop :=
  ∀ (s : State) (e1 da : Addr12), resolve s (.ER e1) = .next da → resultPlace s da = true →
    (∀ im : Byte, ∃ z : Bool,
      exec (.tcmx_ER_IM e1 im) s = .next
        { s with pc := s.pc + 4
                 undef := { s.undef with flags := { s.undef.flags with z := false, s := false, v := false } }
                 flags := { s.flags with z := z, s := im.getLsbD 7 && !(regVal s da).getLsbD 7, v := false } } ∧
      (z = true ↔ ∀ k, k < 8 → im.getLsbD k = true → (regVal s da).getLsbD k = true)) ∧
    (∀ e2 sa : Addr12, resolve s (.ER e2) = .next sa → readable s sa = true → ∃ z : Bool,
      exec (.tcmx_ER_ER e1 e2) s = .next
        { s with pc := s.pc + 4
                 undef := { s.undef with flags := { s.undef.flags with z := false, s := false, v := false } }
                 flags := { s.flags with
                            z := z, s := (regVal s sa).getLsbD 7 && !(regVal s da).getLsbD 7, v := false } } ∧
      (z = true ↔ ∀ k, k < 8 → (regVal s sa).getLsbD k = true → (regVal s da).getLsbD k = true))

/-- R140, R141, R142: both TMX forms set Z exactly when every selected bit of the destination is 0, S when bit 7 is
selected and 1, clear V, so define these three (R222), and change nothing else but pc. -/
def Obligations.TmxTestsSelectedBitsForZero : Prop :=
  ∀ (s : State) (e1 da : Addr12), resolve s (.ER e1) = .next da → resultPlace s da = true →
    (∀ im : Byte, ∃ z : Bool,
      exec (.tmx_ER_IM e1 im) s = .next
        { s with pc := s.pc + 4
                 undef := { s.undef with flags := { s.undef.flags with z := false, s := false, v := false } }
                 flags := { s.flags with z := z, s := im.getLsbD 7 && (regVal s da).getLsbD 7, v := false } } ∧
      (z = true ↔ ∀ k, k < 8 → im.getLsbD k = true → (regVal s da).getLsbD k = false)) ∧
    (∀ e2 sa : Addr12, resolve s (.ER e2) = .next sa → readable s sa = true → ∃ z : Bool,
      exec (.tmx_ER_ER e1 e2) s = .next
        { s with pc := s.pc + 4
                 undef := { s.undef with flags := { s.undef.flags with z := false, s := false, v := false } }
                 flags := { s.flags with
                            z := z, s := (regVal s sa).getLsbD 7 && (regVal s da).getLsbD 7, v := false } } ∧
      (z = true ↔ ∀ k, k < 8 → (regVal s sa).getLsbD k = true → (regVal s da).getLsbD k = false))

/-- R150: LD r,IM puts the immediate in the working register, RP and Flags as locations among them; no flag changes
unless the register is the Flags location, which takes all eight bits. -/
def Obligations.LdLoadsTheImmediate : Prop :=
  ∀ (s : State) (d : Nibble) (im : Byte), s.undef.rp = false → modelled s.cfg (wr s.rp d) = true →
    ∃ t, exec (.ld_r_IM d im) s = .next t ∧ regRead t (wr s.rp d) = .next im ∧ t.pc = s.pc + 2 ∧
      (wr s.rp d ≠ s.cfg.flagsAddr → t.flags = s.flags) ∧
      (regClass s.cfg (wr s.rp d) = .flags → t.flags = flagsOfByte im) ∧
      (regClass s.cfg (wr s.rp d) = .rp → t.rp = im)

/-- R152, R153: LDWX copies the two bytes, each to the same offset, for even modelled pairs. -/
def Obligations.LdwxCopiesTheWord : Prop :=
  ∀ (s : State) (e1 e2 da sa : Addr12),
    resolve s (.ER e1) = .next da → resolve s (.ER e2) = .next sa → da.getLsbD 0 = false → sa.getLsbD 0 = false →
    modelled s.cfg da = true → modelled s.cfg (da + 1) = true → readable s sa = true →
    readable s (sa + 1) = true →
    ∃ t, exec (.ldwx_ER_ER e1 e2) s = .next t ∧ regRead t da = .next (regVal s sa) ∧
      regRead t (da + 1) = .next (regVal s (sa + 1)) ∧ t.pc = s.pc + 5 ∧
      (da ≠ s.cfg.flagsAddr → da + 1 ≠ s.cfg.flagsAddr → t.flags = s.flags)

/-- R163: DJNZ counts down modulo 2^8 and jumps, by the signed displacement from next, while the value is not zero;
no flag changes unless the register is the Flags location. -/
def Obligations.DjnzCountsDown : Prop :=
  ∀ (s : State) (d : Nibble) (ra : Byte), s.undef.rp = false → readable s (wr s.rp d) = true →
    ∃ (t : State) (v : Byte), exec (.djnz d ra) s = .next t ∧ regRead t (wr s.rp d) = .next v ∧
      v.toNat = ((regVal s (wr s.rp d)).toNat + 255) % 256 ∧
      (v = 0 → t.pc = s.pc + 2) ∧
      (v ≠ 0 → (t.pc.toNat : Int) = ((s.pc.toNat : Int) + 2 + ra.toInt) % 65536) ∧
      (wr s.rp d ≠ s.cfg.flagsAddr → t.flags = s.flags)

/-- R164, R165: JR cc jumps by the signed displacement from next, modulo 2^16, when the condition holds, else only
advances; nothing but pc changes. The flags the condition reads are defined (R222). -/
def Obligations.JrJumpsByDisplacement : Prop :=
  ∀ (s : State) (cc : Cond) (ra : Byte), flagsMeet s.undef.flags (condReads cc) = false →
    ∃ p : Addr16, exec (.jr cc ra) s = .next { s with pc := p } ∧
      (condHolds s.flags cc = true → (p.toNat : Int) = ((s.pc.toNat : Int) + 2 + ra.toInt) % 65536) ∧
      (condHolds s.flags cc = false → p.toNat = (s.pc.toNat + 2) % 65536)

/-- R168: JP cc jumps to its address when the condition holds, else only advances; nothing but pc changes; JP ULE,
1234h with C = 0 and Z = 1 leaves pc = 1234h. The flags the condition reads are defined (R222). -/
def Obligations.JpJumpsToAddress : Prop :=
  (∀ (s : State) (cc : Cond) (da16 : Addr16), flagsMeet s.undef.flags (condReads cc) = false →
    ∃ p : Addr16, exec (.jp cc da16) s = .next { s with pc := p } ∧
      (condHolds s.flags cc = true → p = da16) ∧
      (condHolds s.flags cc = false → p.toNat = (s.pc.toNat + 3) % 65536)) ∧
  (∀ s : State, s.undef.flags.c = false → s.undef.flags.z = false → s.flags.c = false → s.flags.z = true →
    exec (.jp .ule 0x1234) s = .next { s with pc := 0x1234 })

/-- R180, R24: SRP sets RP and advances; no flag, and no Register File location but RP's, changes. -/
def Obligations.SrpSwitchesTheWindow : Prop :=
  ∀ (s : State) (im : Byte),
    ∃ t, exec (.srp im) s = .next t ∧ t.rp = im ∧ t.undef.rp = false ∧ t.pc = s.pc + 2 ∧ t.flags = s.flags ∧
      (∀ n : Nibble, resolve t (.r n) = .next (im.extractLsb' 0 4 ++ im.extractLsb' 4 4 ++ n)) ∧
      (∀ a, a ≠ s.cfg.rpAddr → regRead t a = regRead s a)

/-- R122: DA adds what the row of the table "DA adjustment" that matches D, C, the high digit, H and the low digit
says, and sets C by the row, Z and S by the result; D, H, F2 and F1 are kept; V is a free value, of which nothing is
said. The thirteen rows are written out here. -/
def Obligations.DaAdjustsByItsRow : Prop :=
  ∀ (s : State) (i : Instr) (dst : Loc) (da : Addr12) (row : DaRow),
    daForm i = some dst → resolve s dst = .next da → resultPlace s da = true →
    s.undef.flags.d = false → s.undef.flags.c = false → s.undef.flags.h = false →
    row ∈
      ([⟨false, false, 0x0, 0x9, false, 0x0, 0x9, 0x00, false⟩, ⟨false, false, 0x0, 0x8, false, 0xA, 0xF, 0x06, false⟩,
        ⟨false, false, 0x0, 0x9, true, 0x0, 0x3, 0x06, false⟩, ⟨false, false, 0xA, 0xF, false, 0x0, 0x9, 0x60, true⟩,
        ⟨false, false, 0x9, 0xF, false, 0xA, 0xF, 0x66, true⟩, ⟨false, false, 0xA, 0xF, true, 0x0, 0x3, 0x66, true⟩,
        ⟨false, true, 0x0, 0x2, false, 0x0, 0x9, 0x60, true⟩, ⟨false, true, 0x0, 0x2, false, 0xA, 0xF, 0x66, true⟩,
        ⟨false, true, 0x0, 0x3, true, 0x0, 0x3, 0x66, true⟩, ⟨true, false, 0x0, 0x9, false, 0x0, 0x9, 0x00, false⟩,
        ⟨true, false, 0x0, 0x8, true, 0x6, 0xF, 0xFA, false⟩, ⟨true, true, 0x7, 0xF, false, 0x0, 0x9, 0xA0, true⟩,
        ⟨true, true, 0x6, 0xF, true, 0x6, 0xF, 0x9A, true⟩] : List DaRow) →
    s.flags.d = row.d → s.flags.c = row.c → s.flags.h = row.h →
    row.hiFirst ≤ (regVal s da).toNat / 16 → (regVal s da).toNat / 16 ≤ row.hiLast →
    row.loFirst ≤ (regVal s da).toNat % 16 → (regVal s da).toNat % 16 ≤ row.loLast →
    ∃ (t : State) (v : Bool), exec i s = .next t ∧ regRead t da = .next (regVal s da + row.add) ∧ t.pc = s.pc + 2 ∧
      t.flags = { s.flags with c := row.carry, z := decide (regVal s da + row.add = 0),
                               s := (regVal s da + row.add).getLsbD 7, v := v }

/-- R122, R33 ("The DA instruction converts the binary result of a previous addition ... into the correct BCD
result"): ADD of two packed decimal bytes and then DA leave the decimal sum modulo 100, and C when it is 100 or
more. The place is neither Flags, which both refuse, nor RP, whose change would move the operand. -/
def Obligations.DecimalAdditionIsCorrect : Prop :=
  ∀ (s : State) (db y : Byte),
    let a := eaR s.rp db
    let x := regVal s a
    s.undef.rp = false → resultPlace s a = true → a ≠ s.cfg.rpAddr → isBcd x = true → isBcd y = true →
    ∃ (t u : State) (v : Byte), exec (.add_R_IM db y) s = .next t ∧ exec (.da_R db) t = .next u ∧
      regRead u a = .next v ∧ isBcd v = true ∧ bcdValue v = (bcdValue x + bcdValue y) % 100 ∧
      (u.flags.c = true ↔ 100 ≤ bcdValue x + bcdValue y) ∧
      (u.flags.z = true ↔ bcdValue x + bcdValue y = 0 ∨ bcdValue x + bcdValue y = 100)

/-- R122, R32, R33: DA after a subtraction: where the operand is the binary difference of two packed decimal bytes, D
is 1, C says that the subtraction borrowed and H that its low digit did, DA leaves the decimal difference modulo 100
and keeps C. No subtraction is in scope, so the flags and the difference are given, not computed by one. -/
def Obligations.DecimalSubtractionIsCorrect : Prop :=
  ∀ (s : State) (i : Instr) (dst : Loc) (da : Addr12) (x y : Byte),
    daForm i = some dst → resolve s dst = .next da → resultPlace s da = true →
    s.undef.flags.d = false → s.undef.flags.c = false → s.undef.flags.h = false →
    isBcd x = true → isBcd y = true → regVal s da = x - y →
    s.flags.d = true → (s.flags.c = true ↔ x.toNat < y.toNat) → (s.flags.h = true ↔ x.toNat % 16 < y.toNat % 16) →
    ∃ (t : State) (v : Byte), exec i s = .next t ∧ regRead t da = .next v ∧ isBcd v = true ∧
      bcdValue v = (bcdValue x + 100 - bcdValue y) % 100 ∧ (t.flags.c = true ↔ bcdValue x < bcdValue y)

/-! ### Where an instruction stops -/

/-- R194 (4) to (8), R42, R222: the forms of ADD, ADDX, AND, TCMX and TMX report the first condition that holds, in
the rule's order: an address that does not resolve, a location without a model, Flags as the destination, an
undefined value; of each, the destination's first. -/
def Obligations.OperandFormsStopInOrder : Prop :=
  (∀ (i : Instr) (s : State) (dst : Loc) (src : Src), operandForm i = some (dst, src) →
    (∀ q, resolve s dst = .refused q → exec i s = .refused q) ∧
    (∀ f, resolve s dst = .fault f → exec i s = .fault f)) ∧
  (∀ (i : Instr) (s : State) (dst l : Loc) (da : Addr12), operandForm i = some (dst, .loc l) →
    resolve s dst = .next da →
    (∀ q, resolve s l = .refused q → exec i s = .refused q) ∧
    (∀ f, resolve s l = .fault f → exec i s = .fault f)) ∧
  (∀ (i : Instr) (s : State) (dst l : Loc) (da sa : Addr12), operandForm i = some (dst, .loc l) →
    resolve s dst = .next da → resolve s l = .next sa →
    (modelled s.cfg da = false → exec i s = .refused (.unmodelledRegister da)) ∧
    (modelled s.cfg da = true → modelled s.cfg sa = false → exec i s = .refused (.unmodelledRegister sa)) ∧
    (modelled s.cfg sa = true → regClass s.cfg da = .flags → exec i s = .refused .flagsAsDestination) ∧
    (modelled s.cfg da = true → modelled s.cfg sa = true → regClass s.cfg da ≠ .flags → unwritten s da = true →
      exec i s = .fault (.unwrittenRegister da)) ∧
    (resultPlace s da = true → modelled s.cfg sa = true → unwritten s sa = true →
      exec i s = .fault (.unwrittenRegister sa))) ∧
  (∀ (i : Instr) (s : State) (dst : Loc) (v : Byte) (da : Addr12), operandForm i = some (dst, .im v) →
    resolve s dst = .next da →
    (modelled s.cfg da = false → exec i s = .refused (.unmodelledRegister da)) ∧
    (regClass s.cfg da = .flags → exec i s = .refused .flagsAsDestination) ∧
    (modelled s.cfg da = true → regClass s.cfg da ≠ .flags → unwritten s da = true →
      exec i s = .fault (.unwrittenRegister da)))

/-- R122, R42, R100, R194: DA stops on an operand that does not resolve (an escaped pointer, an unmodelled or
undefined pointer register, RP undefined), then on an unmodelled operand, the Flags location, an undefined value, an
undefined D, C or H (the model's reading, log 9), and an input that no row of its table matches. -/
def Obligations.DaRefusals : Prop :=
  (∀ (s : State) (i : Instr) (dst : Loc), daForm i = some dst →
    (∀ q, resolve s dst = .refused q → exec i s = .refused q) ∧
    (∀ f, resolve s dst = .fault f → exec i s = .fault f)) ∧
  (∀ (s : State) (db : Byte), s.undef.rp = false →
    (modelled s.cfg (eaR s.rp db) = false → exec (.da_IR db) s = .refused (.unmodelledRegister (eaR s.rp db))) ∧
    (readable s (eaR s.rp db) = true → (regVal s (eaR s.rp db)).extractLsb' 4 4 = 0xE →
      exec (.da_IR db) s = .refused .indirectEscape)) ∧
  (∀ (s : State) (i : Instr) (dst : Loc) (da : Addr12), daForm i = some dst → resolve s dst = .next da →
    (modelled s.cfg da = false → exec i s = .refused (.unmodelledRegister da)) ∧
    (regClass s.cfg da = .flags → exec i s = .refused .flagsAsDestination) ∧
    (modelled s.cfg da = true → regClass s.cfg da ≠ .flags → unwritten s da = true →
      exec i s = .fault (.unwrittenRegister da)) ∧
    (resultPlace s da = true → s.undef.flags.d = true ∨ s.undef.flags.c = true ∨ s.undef.flags.h = true →
      exec i s = .fault (.unwrittenRegister s.cfg.flagsAddr)) ∧
    (resultPlace s da = true → s.undef.flags.d = false → s.undef.flags.c = false → s.undef.flags.h = false →
      (∀ row ∈ daTable, daRowMatches s.flags (regVal s da) row = false) → exec i s = .refused .daInputNotBcd))

/-- R152, R59, R194 (4) to (8), R150, R163, R44, R222: LDWX stops on an address that does not resolve, the
destination's first, then on an odd address, then on the first location without a model, then on the first undefined
source byte; of the locations the destination pair comes before the source pair (the model's reading of R194 against
the lines of R152, log 16). LD and DJNZ stop on RP undefined and on an unmodelled register, DJNZ on an undefined
one. -/
def Obligations.LoadRefusals : Prop :=
  (∀ (s : State) (e1 e2 : Addr12),
    (∀ q, resolve s (.ER e1) = .refused q → exec (.ldwx_ER_ER e1 e2) s = .refused q) ∧
    (∀ f, resolve s (.ER e1) = .fault f → exec (.ldwx_ER_ER e1 e2) s = .fault f) ∧
    (∀ da, resolve s (.ER e1) = .next da →
      (∀ q, resolve s (.ER e2) = .refused q → exec (.ldwx_ER_ER e1 e2) s = .refused q) ∧
      (∀ f, resolve s (.ER e2) = .fault f → exec (.ldwx_ER_ER e1 e2) s = .fault f))) ∧
  (∀ (s : State) (e1 e2 da sa : Addr12), resolve s (.ER e1) = .next da → resolve s (.ER e2) = .next sa →
    ((da.getLsbD 0 = true ∨ sa.getLsbD 0 = true) → exec (.ldwx_ER_ER e1 e2) s = .refused .ldwxOddAddress) ∧
    (da.getLsbD 0 = false → sa.getLsbD 0 = false →
      (modelled s.cfg da = false → exec (.ldwx_ER_ER e1 e2) s = .refused (.unmodelledRegister da)) ∧
      (modelled s.cfg da = true → modelled s.cfg (da + 1) = false →
        exec (.ldwx_ER_ER e1 e2) s = .refused (.unmodelledRegister (da + 1))) ∧
      (modelled s.cfg da = true → modelled s.cfg (da + 1) = true → modelled s.cfg sa = false →
        exec (.ldwx_ER_ER e1 e2) s = .refused (.unmodelledRegister sa)) ∧
      (modelled s.cfg da = true → modelled s.cfg (da + 1) = true → modelled s.cfg sa = true →
        modelled s.cfg (sa + 1) = false → exec (.ldwx_ER_ER e1 e2) s = .refused (.unmodelledRegister (sa + 1))) ∧
      (modelled s.cfg da = true → modelled s.cfg (da + 1) = true → modelled s.cfg sa = true →
        modelled s.cfg (sa + 1) = true →
        (unwritten s sa = true → exec (.ldwx_ER_ER e1 e2) s = .fault (.unwrittenRegister sa)) ∧
        (unwritten s sa = false → unwritten s (sa + 1) = true →
          exec (.ldwx_ER_ER e1 e2) s = .fault (.unwrittenRegister (sa + 1)))))) ∧
  (∀ (s : State) (d : Nibble) (b : Byte),
    (s.undef.rp = true → exec (.ld_r_IM d b) s = .fault (.unwrittenRegister s.cfg.rpAddr) ∧
      exec (.djnz d b) s = .fault (.unwrittenRegister s.cfg.rpAddr)) ∧
    (s.undef.rp = false → modelled s.cfg (wr s.rp d) = false →
      exec (.ld_r_IM d b) s = .refused (.unmodelledRegister (wr s.rp d)) ∧
      exec (.djnz d b) s = .refused (.unmodelledRegister (wr s.rp d))) ∧
    (s.undef.rp = false → modelled s.cfg (wr s.rp d) = true → unwritten s (wr s.rp d) = true →
      exec (.djnz d b) s = .fault (.unwrittenRegister (wr s.rp d))))

/-- R98, R152: an instruction is ill-formed exactly when its operand fields alone refuse it, as EscapedPageE or
LdwxOddAddress, in every state that has RP; in no state does it complete. -/
def Obligations.IllFormedRefusedEverywhere : Prop :=
  ∀ (i : Instr) (s : State),
    (s.undef.rp = false → i.wellFormed = false →
      exec i s = .refused .escapedPageE ∨ exec i s = .refused .ldwxOddAddress) ∧
    (exec i s = .refused .escapedPageE ∨ exec i s = .refused .ldwxOddAddress → i.wellFormed = false) ∧
    (i.wellFormed = false → ∀ t, exec i s ≠ .next t)

/-! ### Frames and whole-machine rules -/

/-- R63 and every instruction's rule: a location that is not the instruction's destination, as its operand form
gives it, reads as before, the Flags location apart for an instruction that writes flags, and RP's for SRP; so does
every byte of Register File storage. -/
def Obligations.RegisterFrame : Prop :=
  ∀ (i : Instr) (s t : State), exec i s = .next t → ∀ a : Addr12, a ∉ writes s i →
    regFileFind t.cfg.blank t.regs a = regFileFind s.cfg.blank s.regs a ∧
    ((a = s.cfg.flagsAddr → flagRow i = ⟨.kept, .kept, .kept, .kept, .kept, .kept⟩) →
      (∀ im, i = .srp im → a ≠ s.cfg.rpAddr) → regRead t a = regRead s a)

/-- R38, R41, R222: unless its destination is the Flags location, an instruction leaves each flag as the table says:
the flags marked kept as they were, undefined included, the ones marked cleared 0, every flag it writes defined, and
F2 and F1 never touched. -/
def Obligations.FlagTableHolds : Prop :=
  ∀ (i : Instr) (s t : State), exec i s = .next t → s.cfg.flagsAddr ∉ writes s i →
    rowAllows (flagRow i) s.flags t.flags = true ∧ rowDefines (flagRow i) s.undef.flags t.undef.flags = true

/-- R71, R52, R221: no instruction writes program memory or changes a parameter; only DA draws a free value. -/
def Obligations.ProgramAndParametersFixed : Prop :=
  ∀ (i : Instr) (s t : State), exec i s = .next t →
    t.prog = s.prog ∧ t.cfg = s.cfg ∧
    ((∀ db, i ≠ .da_R db) → (∀ db, i ≠ .da_IR db) → t.draws = s.draws)

/-- R54, R52: no instruction reads program memory as data: with another program in memory it does the same. -/
def Obligations.ProgramMemoryIsNotData : Prop :=
  ∀ (i : Instr) (s : State) (m : List Host.Cell),
    (∀ t, exec i s = .next t → exec i (s.setProg m) = .next (t.setProg m)) ∧
    (∀ f, exec i s = .fault f → exec i (s.setProg m) = .fault f) ∧
    (∀ q, exec i s = .refused q → exec i (s.setProg m) = .refused q)

/-- R29: an instruction that is no jump leaves pc = pc + L; DJNZ and JR leave that or next + sext(RA), JP that or its
address. -/
def Obligations.PcMovesPastTheInstruction : Prop :=
  ∀ (i : Instr) (s t : State), exec i s = .next t →
    t.pc = s.pc + BitVec.ofNat 16 (encode i).length ∨
    (∃ d ra, i = .djnz d ra ∧ t.pc = s.pc + 2 + ra.signExtend 16) ∨
    (∃ cc ra, i = .jr cc ra ∧ t.pc = s.pc + 2 + ra.signExtend 16 ∧ condHolds s.flags cc = true) ∨
    (∃ cc da16, i = .jp cc da16 ∧ t.pc = da16 ∧ condHolds s.flags cc = true)

/-- R181, R40: RP changes only by SRP or by an instruction whose destination is the RP location. -/
def Obligations.RpChangesOnlyByWrite : Prop :=
  ∀ (i : Instr) (s t : State), exec i s = .next t →
    (t.rp = s.rp ∧ t.undef.rp = s.undef.rp) ∨ i = .srp t.rp ∨ s.cfg.rpAddr ∈ writes s i

/-- R32, R41, R42: D becomes 1, or F2 or F1 changes, only when LD, LDWX or DJNZ writes the Flags location. -/
def Obligations.DAndUserFlagsOnlyByFlagsWrite : Prop :=
  ∀ (i : Instr) (s t : State), exec i s = .next t →
    ((s.flags.d = false ∧ t.flags.d = true) ∨ t.flags.f2 ≠ s.flags.f2 ∨ t.flags.f1 ≠ s.flags.f1) →
    s.cfg.flagsAddr ∈ writes s i ∧
    ((∃ d im, i = .ld_r_IM d im) ∨ (∃ d ra, i = .djnz d ra) ∨ (∃ e1 e2, i = .ldwx_ER_ER e1 e2))

/-- R61, R62, R44, R222: every step keeps both memories in canonical form and stores nothing where there is no
storage, and where everything is defined it leaves everything defined. The canonical form is the model's (log 1,
log 3). -/
def Obligations.StepKeepsInvariant : Prop :=
  ∀ s t : State, step s = .next t → (Inv s → Inv t) ∧ (AllDefined s → AllDefined t)

/-- The reset state meets the invariant, and everything in it is defined (the model's choice, log 1). -/
def Obligations.InvariantAtReset : Prop := Inv State.reset ∧ AllDefined State.reset

/-- R47: the spec states no reset value: pc (log 2), RP, the flags, every location below page Fh, SPH and SPL (log 1,
log 4), END_PC (log 7) and draws (log 8) are the model's choice. PROG_SIZE, RP_ADDR, FLAGS_ADDR, the classes of all of
page Fh, BRK_MODE and ADMIT_GK_ROWS are the defaults of R7 to R10. -/
def Obligations.ResetValues : Prop :=
  State.reset.pc = 0 ∧ State.reset.rp = 0 ∧ State.reset.flags = Flags.zero ∧ State.reset.undef = Undef.nothing ∧
  State.reset.draws = 0 ∧
  (∀ a : Addr12, a.toNat < 0xF00 → regRead State.reset a = .next 0) ∧
  regRead State.reset 0xFFE = .next 0 ∧ regRead State.reset 0xFFF = .next 0 ∧ State.reset.cfg.endPc = none ∧
  State.reset.cfg.progSize = 65536 ∧ State.reset.cfg.rpAddr = 0xFFD ∧ State.reset.cfg.flagsAddr = 0xFFC ∧
  State.reset.cfg.brkMode = .stop ∧ State.reset.cfg.admitGkRows = false ∧
  (∀ a : Addr12, regClass State.reset.cfg a =
    if a.toNat < 0xF00 then .ram else if a.toNat < 0xFFC then .device else if a = 0xFFC then .flags
    else if a = 0xFFD then .rp else if a = 0xFFE then .sph else .spl)

/-- R80, R230, R231: where Table 26 gives fetch cycles they are the length in bytes; DJNZ R0 takes 3 execution cycles
when the decremented value is zero and 4 when not. -/
def Obligations.CycleCounts : Prop :=
  (∀ (i : Instr) (c : Cycles), cyclesOf i = some c → c.fetch = (encode i).length) ∧
  (∀ (s : State) (ra : Byte),
    (regVal s (wr s.rp 0) = 1 → execCycles (.djnz 0 ra) s = some 3) ∧
    (regVal s (wr s.rp 0) ≠ 1 → execCycles (.djnz 0 ra) s = some 4))
end

