-- ==== Sys2Proof/Laws/Decode.lean ====
section
/-! SUPPORT. The fields of an encoding, taken apart and put together. -/

namespace Sys2Proof

@[simp] theorem hiNibble_nibbles (h l : Nibble) : hiNibble (nibbles h l) = h := by
  revert h l; decide

@[simp] theorem loNibble_nibbles (h l : Nibble) : loNibble (nibbles h l) = l := by
  revert h l; decide

@[simp] theorem nibbles_hi_lo (b : Byte) : nibbles (hiNibble b) (loNibble b) = b := by
  revert b; decide

@[simp] theorem ofBits_toBits (cc : Cond) : Cond.ofBits cc.toBits = cc := by cases cc <;> rfl

@[simp] theorem toBits_ofBits (n : Nibble) : (Cond.ofBits n).toBits = n := by revert n; decide

/-- A vector is its bits from `n` up and its bits below `n`. -/
theorem split_at {m n : Nat} (x : BitVec (m + n)) : x.extractLsb' n m ++ x.extractLsb' 0 n = x := by
  ext k hk
  simp only [BitVec.getElem_append, BitVec.getElem_extractLsb']
  split
  · simp [BitVec.getLsbD_eq_getElem hk]
  · rw [← BitVec.getLsbD_eq_getElem hk]; congr 1; omega

/-- A 12-bit address is its high nibble and its low byte. -/
theorem addr12_split_low (e : Addr12) : (e.extractLsb' 8 4 ++ e.extractLsb' 0 8 : BitVec (4 + 8)) = e :=
  split_at (m := 4) (n := 8) e

/-- A 12-bit address is its high byte and its low nibble. -/
theorem addr12_split_high (e : Addr12) : (e.extractLsb' 4 8 ++ e.extractLsb' 0 4 : BitVec (8 + 4)) = e :=
  split_at (m := 8) (n := 4) e

/-- A 16-bit address is its high byte and its low byte. -/
theorem addr16_split (e : Addr16) : (e.extractLsb' 8 8 ++ e.extractLsb' 0 8 : BitVec (8 + 8)) = e :=
  split_at (m := 8) (n := 8) e

/-- The upper part of a concatenation. -/
theorem upper_append {m n : Nat} (x : BitVec m) (y : BitVec n) : (x ++ y).extractLsb' n m = x := by
  ext k hk
  simp [BitVec.getElem_extractLsb', BitVec.getLsbD_append, BitVec.getLsbD_eq_getElem hk]

/-- The lower part of a concatenation. -/
theorem lower_append {m n : Nat} (x : BitVec m) (y : BitVec n) : (x ++ y).extractLsb' 0 n = y := by
  ext k hk
  simp [BitVec.getElem_extractLsb', BitVec.getLsbD_append, hk]

/-! ### What each operand parser can answer -/

theorem operand1_eq_instr {t r : List Byte} {mk : Byte → Instr} {i : Instr} :
    operand1 t mk = .instr i r ↔ ∃ b, t = b :: r ∧ i = mk b := by
  unfold operand1
  split
  · simp only [Decoded.instr.injEq, List.cons.injEq]
    constructor
    · rintro ⟨rfl, rfl⟩; exact ⟨_, ⟨rfl, rfl⟩, rfl⟩
    · rintro ⟨_, ⟨rfl, rfl⟩, rfl⟩; exact ⟨rfl, rfl⟩
  · simp

theorem operand2_eq_instr {t r : List Byte} {mk : Byte → Byte → Instr} {i : Instr} :
    operand2 t mk = .instr i r ↔ ∃ b c, t = b :: c :: r ∧ i = mk b c := by
  unfold operand2
  split
  · simp only [Decoded.instr.injEq, List.cons.injEq]
    constructor
    · rintro ⟨rfl, rfl⟩; exact ⟨_, _, ⟨rfl, rfl, rfl⟩, rfl⟩
    · rintro ⟨_, _, ⟨rfl, rfl, rfl⟩, rfl⟩; exact ⟨rfl, rfl⟩
  · rename_i h
    simp only [reduceCtorEq, false_iff]
    rintro ⟨b, c, rfl, -⟩
    exact h _ _ _ rfl

theorem ifAdmitted_eq_instr {g : Bool} {b0 : Byte} {d : Decoded} {i : Instr} {r : List Byte} :
    ifAdmitted g b0 d = .instr i r ↔ g = true ∧ d = .instr i r := by
  cases g <;> simp [ifAdmitted]

end Sys2Proof
end

