-- ==== Sys2Proof/Laws/State.lean ====
section
/-! SUPPORT. One lemma per field per update of State. -/

namespace Sys2Proof.Machine

@[simp] theorem State.setPc_pc (s : State) (v : Addr16) : (s.setPc v).pc = v := rfl
@[simp] theorem State.setPc_rp (s : State) (v : Addr16) : (s.setPc v).rp = s.rp := rfl
@[simp] theorem State.setPc_flags (s : State) (v : Addr16) : (s.setPc v).flags = s.flags := rfl
@[simp] theorem State.setPc_undef (s : State) (v : Addr16) : (s.setPc v).undef = s.undef := rfl
@[simp] theorem State.setPc_regs (s : State) (v : Addr16) : (s.setPc v).regs = s.regs := rfl
@[simp] theorem State.setPc_prog (s : State) (v : Addr16) : (s.setPc v).prog = s.prog := rfl
@[simp] theorem State.setPc_draws (s : State) (v : Addr16) : (s.setPc v).draws = s.draws := rfl
@[simp] theorem State.setPc_cfg (s : State) (v : Addr16) : (s.setPc v).cfg = s.cfg := rfl

@[simp] theorem State.setRp_pc (s : State) (v : Byte) : (s.setRp v).pc = s.pc := rfl
@[simp] theorem State.setRp_rp (s : State) (v : Byte) : (s.setRp v).rp = v := rfl
@[simp] theorem State.setRp_flags (s : State) (v : Byte) : (s.setRp v).flags = s.flags := rfl
@[simp] theorem State.setRp_undef (s : State) (v : Byte) : (s.setRp v).undef = s.undef := rfl
@[simp] theorem State.setRp_regs (s : State) (v : Byte) : (s.setRp v).regs = s.regs := rfl
@[simp] theorem State.setRp_prog (s : State) (v : Byte) : (s.setRp v).prog = s.prog := rfl
@[simp] theorem State.setRp_draws (s : State) (v : Byte) : (s.setRp v).draws = s.draws := rfl
@[simp] theorem State.setRp_cfg (s : State) (v : Byte) : (s.setRp v).cfg = s.cfg := rfl

@[simp] theorem State.setFlags_pc (s : State) (v : Flags) : (s.setFlags v).pc = s.pc := rfl
@[simp] theorem State.setFlags_rp (s : State) (v : Flags) : (s.setFlags v).rp = s.rp := rfl
@[simp] theorem State.setFlags_flags (s : State) (v : Flags) : (s.setFlags v).flags = v := rfl
@[simp] theorem State.setFlags_undef (s : State) (v : Flags) : (s.setFlags v).undef = s.undef := rfl
@[simp] theorem State.setFlags_regs (s : State) (v : Flags) : (s.setFlags v).regs = s.regs := rfl
@[simp] theorem State.setFlags_prog (s : State) (v : Flags) : (s.setFlags v).prog = s.prog := rfl
@[simp] theorem State.setFlags_draws (s : State) (v : Flags) : (s.setFlags v).draws = s.draws := rfl
@[simp] theorem State.setFlags_cfg (s : State) (v : Flags) : (s.setFlags v).cfg = s.cfg := rfl

@[simp] theorem State.setUndef_pc (s : State) (v : Undef) : (s.setUndef v).pc = s.pc := rfl
@[simp] theorem State.setUndef_rp (s : State) (v : Undef) : (s.setUndef v).rp = s.rp := rfl
@[simp] theorem State.setUndef_flags (s : State) (v : Undef) : (s.setUndef v).flags = s.flags := rfl
@[simp] theorem State.setUndef_undef (s : State) (v : Undef) : (s.setUndef v).undef = v := rfl
@[simp] theorem State.setUndef_regs (s : State) (v : Undef) : (s.setUndef v).regs = s.regs := rfl
@[simp] theorem State.setUndef_prog (s : State) (v : Undef) : (s.setUndef v).prog = s.prog := rfl
@[simp] theorem State.setUndef_draws (s : State) (v : Undef) : (s.setUndef v).draws = s.draws := rfl
@[simp] theorem State.setUndef_cfg (s : State) (v : Undef) : (s.setUndef v).cfg = s.cfg := rfl

@[simp] theorem State.setRegs_pc (s : State) (v : List Host.Cell) : (s.setRegs v).pc = s.pc := rfl
@[simp] theorem State.setRegs_rp (s : State) (v : List Host.Cell) : (s.setRegs v).rp = s.rp := rfl
@[simp] theorem State.setRegs_flags (s : State) (v : List Host.Cell) : (s.setRegs v).flags = s.flags := rfl
@[simp] theorem State.setRegs_undef (s : State) (v : List Host.Cell) : (s.setRegs v).undef = s.undef := rfl
@[simp] theorem State.setRegs_regs (s : State) (v : List Host.Cell) : (s.setRegs v).regs = v := rfl
@[simp] theorem State.setRegs_prog (s : State) (v : List Host.Cell) : (s.setRegs v).prog = s.prog := rfl
@[simp] theorem State.setRegs_draws (s : State) (v : List Host.Cell) : (s.setRegs v).draws = s.draws := rfl
@[simp] theorem State.setRegs_cfg (s : State) (v : List Host.Cell) : (s.setRegs v).cfg = s.cfg := rfl

@[simp] theorem State.setProg_pc (s : State) (v : List Host.Cell) : (s.setProg v).pc = s.pc := rfl
@[simp] theorem State.setProg_rp (s : State) (v : List Host.Cell) : (s.setProg v).rp = s.rp := rfl
@[simp] theorem State.setProg_flags (s : State) (v : List Host.Cell) : (s.setProg v).flags = s.flags := rfl
@[simp] theorem State.setProg_undef (s : State) (v : List Host.Cell) : (s.setProg v).undef = s.undef := rfl
@[simp] theorem State.setProg_regs (s : State) (v : List Host.Cell) : (s.setProg v).regs = s.regs := rfl
@[simp] theorem State.setProg_prog (s : State) (v : List Host.Cell) : (s.setProg v).prog = v := rfl
@[simp] theorem State.setProg_draws (s : State) (v : List Host.Cell) : (s.setProg v).draws = s.draws := rfl
@[simp] theorem State.setProg_cfg (s : State) (v : List Host.Cell) : (s.setProg v).cfg = s.cfg := rfl

@[simp] theorem State.setDraws_pc (s : State) (v : Nat) : (s.setDraws v).pc = s.pc := rfl
@[simp] theorem State.setDraws_rp (s : State) (v : Nat) : (s.setDraws v).rp = s.rp := rfl
@[simp] theorem State.setDraws_flags (s : State) (v : Nat) : (s.setDraws v).flags = s.flags := rfl
@[simp] theorem State.setDraws_undef (s : State) (v : Nat) : (s.setDraws v).undef = s.undef := rfl
@[simp] theorem State.setDraws_regs (s : State) (v : Nat) : (s.setDraws v).regs = s.regs := rfl
@[simp] theorem State.setDraws_prog (s : State) (v : Nat) : (s.setDraws v).prog = s.prog := rfl
@[simp] theorem State.setDraws_draws (s : State) (v : Nat) : (s.setDraws v).draws = v := rfl
@[simp] theorem State.setDraws_cfg (s : State) (v : Nat) : (s.setDraws v).cfg = s.cfg := rfl

@[simp] theorem State.setCfg_pc (s : State) (v : Config) : (s.setCfg v).pc = s.pc := rfl
@[simp] theorem State.setCfg_rp (s : State) (v : Config) : (s.setCfg v).rp = s.rp := rfl
@[simp] theorem State.setCfg_flags (s : State) (v : Config) : (s.setCfg v).flags = s.flags := rfl
@[simp] theorem State.setCfg_undef (s : State) (v : Config) : (s.setCfg v).undef = s.undef := rfl
@[simp] theorem State.setCfg_regs (s : State) (v : Config) : (s.setCfg v).regs = s.regs := rfl
@[simp] theorem State.setCfg_prog (s : State) (v : Config) : (s.setCfg v).prog = s.prog := rfl
@[simp] theorem State.setCfg_draws (s : State) (v : Config) : (s.setCfg v).draws = s.draws := rfl
@[simp] theorem State.setCfg_cfg (s : State) (v : Config) : (s.setCfg v).cfg = v := rfl

end Sys2Proof.Machine
end

