-- ==== Sys2Proof/Laws/Ops.lean ====
section
/-! SUPPORT. What each shared operation can do, said once. -/

namespace Sys2Proof.Machine

@[simp] theorem andThen_next {α β : Type} (a : α) (k : α → Result β) : andThen (.next a) k = k a := rfl
@[simp] theorem andThen_fault {α β : Type} (f : Fault) (k : α → Result β) : andThen (.fault f) k = .fault f := rfl
@[simp] theorem andThen_refused {α β : Type} (q : Refusal) (k : α → Result β) :
    andThen (.refused q) k = .refused q := rfl

/-- A chain answers a value exactly when its parts do. -/
theorem andThen_eq_next {α β : Type} {r : Result α} {k : α → Result β} {b : β} :
    andThen r k = .next b ↔ ∃ a, r = .next a ∧ k a = .next b := by
  cases r <;> simp [andThen]

theorem andThen_eq_fault {α β : Type} {r : Result α} {k : α → Result β} {f : Fault} :
    andThen r k = .fault f ↔ r = .fault f ∨ ∃ a, r = .next a ∧ k a = .fault f := by
  cases r <;> simp [andThen]

theorem andThen_eq_refused {α β : Type} {r : Result α} {k : α → Result β} {q : Refusal} :
    andThen r k = .refused q ↔ r = .refused q ∨ ∃ a, r = .next a ∧ k a = .refused q := by
  cases r <;> simp [andThen]

/-! ### pc, RP and the flags set -/

@[simp] theorem advance_pc (s : State) (n : Nat) : (advance s n).pc = s.pc + BitVec.ofNat 16 n := rfl
@[simp] theorem advance_rp (s : State) (n : Nat) : (advance s n).rp = s.rp := rfl
@[simp] theorem advance_flags (s : State) (n : Nat) : (advance s n).flags = s.flags := rfl
@[simp] theorem advance_undef (s : State) (n : Nat) : (advance s n).undef = s.undef := rfl
@[simp] theorem advance_regs (s : State) (n : Nat) : (advance s n).regs = s.regs := rfl
@[simp] theorem advance_prog (s : State) (n : Nat) : (advance s n).prog = s.prog := rfl
@[simp] theorem advance_draws (s : State) (n : Nat) : (advance s n).draws = s.draws := rfl
@[simp] theorem advance_cfg (s : State) (n : Nat) : (advance s n).cfg = s.cfg := rfl

@[simp] theorem putRp_pc (s : State) (v : Byte) : (putRp s v).pc = s.pc := rfl
@[simp] theorem putRp_rp (s : State) (v : Byte) : (putRp s v).rp = v := rfl
@[simp] theorem putRp_flags (s : State) (v : Byte) : (putRp s v).flags = s.flags := rfl
@[simp] theorem putRp_undef (s : State) (v : Byte) : (putRp s v).undef = { s.undef with rp := false } := rfl
@[simp] theorem putRp_regs (s : State) (v : Byte) : (putRp s v).regs = s.regs := rfl
@[simp] theorem putRp_prog (s : State) (v : Byte) : (putRp s v).prog = s.prog := rfl
@[simp] theorem putRp_draws (s : State) (v : Byte) : (putRp s v).draws = s.draws := rfl
@[simp] theorem putRp_cfg (s : State) (v : Byte) : (putRp s v).cfg = s.cfg := rfl

@[simp] theorem putFlags_pc (s : State) (v d : Flags) : (putFlags s v d).pc = s.pc := rfl
@[simp] theorem putFlags_rp (s : State) (v d : Flags) : (putFlags s v d).rp = s.rp := rfl
@[simp] theorem putFlags_flags (s : State) (v d : Flags) : (putFlags s v d).flags = v := rfl
@[simp] theorem putFlags_undef (s : State) (v d : Flags) :
    (putFlags s v d).undef = { s.undef with flags := flagsMinus s.undef.flags d } := rfl
@[simp] theorem putFlags_regs (s : State) (v d : Flags) : (putFlags s v d).regs = s.regs := rfl
@[simp] theorem putFlags_prog (s : State) (v d : Flags) : (putFlags s v d).prog = s.prog := rfl
@[simp] theorem putFlags_draws (s : State) (v d : Flags) : (putFlags s v d).draws = s.draws := rfl
@[simp] theorem putFlags_cfg (s : State) (v d : Flags) : (putFlags s v d).cfg = s.cfg := rfl

/-! ### Sets of flags -/

theorem flagsMinus_zero (m : Flags) : flagsMinus Flags.zero m = Flags.zero := rfl

theorem flagsMinus_allFlags (u : Flags) : flagsMinus u allFlags = Flags.zero := by
  simp [flagsMinus, allFlags, Flags.zero]

theorem flagsMeet_zero_left (m : Flags) : flagsMeet Flags.zero m = false := by simp [flagsMeet, Flags.zero]

theorem flagsMeet_zero_right (u : Flags) : flagsMeet u Flags.zero = false := by simp [flagsMeet, Flags.zero]

/-- Some flag is undefined exactly when the set of them is not empty. -/
theorem flagsMeet_allFlags {u : Flags} : flagsMeet u allFlags = false ↔ u = Flags.zero := by
  obtain ⟨c, z, s, v, d, h, f2, f1⟩ := u
  simp [flagsMeet, allFlags, Flags.zero, and_assoc]

/-! ### Checks -/

theorem mustBeModelled_eq_next {c : Config} {a : Addr12} {u : Unit} :
    mustBeModelled c a = .next u ↔ modelled c a = true := by
  unfold mustBeModelled; split <;> simp_all

theorem mustBeModelled_eq_refused {c : Config} {a : Addr12} {q : Refusal} :
    mustBeModelled c a = .refused q ↔ modelled c a = false ∧ q = .unmodelledRegister a := by
  unfold mustBeModelled; split <;> rename_i h <;> simp [h, @eq_comm _ q]

theorem mustBeModelled_not_fault {c : Config} {a : Addr12} {f : Fault} : mustBeModelled c a ≠ .fault f := by
  unfold mustBeModelled; split <;> simp

theorem mustNotBeFlags_eq_next {c : Config} {a : Addr12} {u : Unit} :
    mustNotBeFlags c a = .next u ↔ regClass c a ≠ .flags := by
  unfold mustNotBeFlags; split <;> simp_all

theorem mustNotBeFlags_not_fault {c : Config} {a : Addr12} {f : Fault} : mustNotBeFlags c a ≠ .fault f := by
  unfold mustNotBeFlags; split <;> simp

theorem rpOf_eq_next {s : State} {v : Byte} : rpOf s = .next v ↔ s.undef.rp = false ∧ v = s.rp := by
  unfold rpOf; split <;> rename_i h <;> simp_all [@eq_comm _ v]

theorem rpOf_eq_fault {s : State} {f : Fault} :
    rpOf s = .fault f ↔ s.undef.rp = true ∧ f = .unwrittenRegister s.cfg.rpAddr := by
  unfold rpOf; split <;> rename_i h <;> simp [h, @eq_comm _ f]

theorem rpOf_not_refused {s : State} {q : Refusal} : rpOf s ≠ .refused q := by
  unfold rpOf; split <;> simp

theorem flagsFor_eq_next {s : State} {m f : Flags} :
    flagsFor s m = .next f ↔ flagsMeet s.undef.flags m = false ∧ f = s.flags := by
  unfold flagsFor; split <;> rename_i h <;> simp_all [@eq_comm _ f]

theorem flagsFor_eq_fault {s : State} {m : Flags} {f : Fault} :
    flagsFor s m = .fault f ↔ flagsMeet s.undef.flags m = true ∧ f = .unwrittenRegister s.cfg.flagsAddr := by
  unfold flagsFor; split <;> rename_i h <;> simp [h, @eq_comm _ f]

theorem flagsFor_not_refused {s : State} {m : Flags} {q : Refusal} : flagsFor s m ≠ .refused q := by
  unfold flagsFor; split <;> simp

/-! ### Register reads and writes -/

theorem readable_eq_true {s : State} {a : Addr12} :
    readable s a = true ↔ modelled s.cfg a = true ∧ unwritten s a = false := by simp [readable]

theorem regRead_eq_next {s : State} {a : Addr12} {v : Byte} :
    regRead s a = .next v ↔ readable s a = true ∧ regVal s a = v := by
  simp only [regRead, andThen_eq_next, mustBeModelled_eq_next, readable_eq_true]
  split <;> simp_all

theorem regRead_eq_fault {s : State} {a : Addr12} {f : Fault} :
    regRead s a = .fault f ↔ modelled s.cfg a = true ∧ unwritten s a = true ∧ f = .unwrittenRegister a := by
  simp only [regRead, andThen_eq_fault, mustBeModelled_eq_next, mustBeModelled_not_fault, false_or]
  split <;> rename_i h <;> simp [h, @eq_comm _ f]

theorem regRead_eq_refused {s : State} {a : Addr12} {q : Refusal} :
    regRead s a = .refused q ↔ modelled s.cfg a = false ∧ q = .unmodelledRegister a := by
  simp only [regRead, andThen_eq_refused, mustBeModelled_eq_next, mustBeModelled_eq_refused]
  split <;> simp

theorem regWrite_eq_next {s t : State} {a : Addr12} {v : Byte} :
    regWrite s a v = .next t ↔ modelled s.cfg a = true ∧ regPut s a v = t := by
  simp only [regWrite, andThen_eq_next, mustBeModelled_eq_next, Host.Outcome.next.injEq]
  exact ⟨fun ⟨_, h⟩ => h, fun h => ⟨(), h⟩⟩

theorem regWrite_not_fault {s : State} {a : Addr12} {v : Byte} {f : Fault} : regWrite s a v ≠ .fault f := by
  simp [regWrite, andThen_eq_fault, mustBeModelled_not_fault]

theorem regWrite_eq_refused {s : State} {a : Addr12} {v : Byte} {q : Refusal} :
    regWrite s a v = .refused q ↔ modelled s.cfg a = false ∧ q = .unmodelledRegister a := by
  simp [regWrite, andThen_eq_refused, mustBeModelled_eq_refused]

theorem regRead_of_readable {s : State} {a : Addr12} (h : readable s a = true) :
    regRead s a = .next (regVal s a) := regRead_eq_next.mpr ⟨h, rfl⟩

theorem regWrite_of_modelled {s : State} {a : Addr12} (v : Byte) (h : modelled s.cfg a = true) :
    regWrite s a v = .next (regPut s a v) := regWrite_eq_next.mpr ⟨h, rfl⟩

/-- Two states in which a location is as modelled, as much written and of the same value answer the same read. -/
theorem regRead_congr {s t : State} {a : Addr12} (hm : modelled t.cfg a = modelled s.cfg a)
    (hu : unwritten t a = unwritten s a) (hv : regVal t a = regVal s a) : regRead t a = regRead s a := by
  simp only [regRead, mustBeModelled, hm, hu, hv]

@[simp] theorem regPut_pc (s : State) (a : Addr12) (v : Byte) : (regPut s a v).pc = s.pc := by
  unfold regPut; split <;> rfl
@[simp] theorem regPut_prog (s : State) (a : Addr12) (v : Byte) : (regPut s a v).prog = s.prog := by
  unfold regPut; split <;> rfl
@[simp] theorem regPut_draws (s : State) (a : Addr12) (v : Byte) : (regPut s a v).draws = s.draws := by
  unfold regPut; split <;> rfl
@[simp] theorem regPut_cfg (s : State) (a : Addr12) (v : Byte) : (regPut s a v).cfg = s.cfg := by
  unfold regPut; split <;> rfl

theorem regPut_rp (s : State) (a : Addr12) (v : Byte) :
    (regPut s a v).rp = if regClass s.cfg a = .rp then v else s.rp := by
  unfold regPut; split <;> simp_all

theorem regPut_flags (s : State) (a : Addr12) (v : Byte) :
    (regPut s a v).flags = if regClass s.cfg a = .flags then flagsOfByte v else s.flags := by
  unfold regPut; split <;> simp_all

theorem regPut_undef_rp (s : State) (a : Addr12) (v : Byte) :
    (regPut s a v).undef.rp = if regClass s.cfg a = .rp then false else s.undef.rp := by
  unfold regPut; split <;> simp_all

theorem regPut_undef_flags (s : State) (a : Addr12) (v : Byte) :
    (regPut s a v).undef.flags = if regClass s.cfg a = .flags then Flags.zero else s.undef.flags := by
  unfold regPut; split <;> simp_all [flagsMinus_allFlags]

/-! ### Operands, results -/

/-- What the reading of the operands can answer. -/
theorem operands_eq_next {s : State} {dst : Loc} {src : Src} {o : Operands} :
    operands s dst src = .next o ↔
      resolve s dst = .next o.da ∧ readable s o.da = true ∧ regClass s.cfg o.da ≠ .flags ∧ o.a = regVal s o.da ∧
        match src with
        | .im v => o.b = v
        | .loc l => ∃ sa, resolve s l = .next sa ∧ readable s sa = true ∧ o.b = regVal s sa := by
  obtain ⟨da, a, b⟩ := o
  cases src with
  | im v =>
    simp only [operands, andThen_eq_next, mustBeModelled_eq_next, mustNotBeFlags_eq_next, regRead_eq_next,
      Host.Outcome.next.injEq, Operands.mk.injEq]
    constructor
    · rintro ⟨_, h, _, -, _, hf, _, ⟨hm, rfl⟩, rfl, rfl, rfl⟩; exact ⟨h, hm, hf, rfl, rfl⟩
    · rintro ⟨h, hm, hf, rfl, rfl⟩
      exact ⟨_, h, (), (readable_eq_true.mp hm).1, (), hf, _, ⟨hm, rfl⟩, rfl, rfl, rfl⟩
  | loc l =>
    simp only [operands, andThen_eq_next, mustBeModelled_eq_next, mustNotBeFlags_eq_next, regRead_eq_next,
      Host.Outcome.next.injEq, Operands.mk.injEq]
    constructor
    · rintro ⟨_, h, sa, hs, _, -, _, -, _, hf, _, ⟨hm, rfl⟩, _, ⟨hn, rfl⟩, rfl, rfl, rfl⟩
      exact ⟨h, hm, hf, rfl, sa, hs, hn, rfl⟩
    · rintro ⟨h, hm, hf, rfl, sa, hs, hn, rfl⟩
      exact ⟨_, h, sa, hs, (), (readable_eq_true.mp hm).1, (), (readable_eq_true.mp hn).1, (), hf, _, ⟨hm, rfl⟩, _,
        ⟨hn, rfl⟩, rfl, rfl, rfl⟩

/-- Everything a storing instruction can do when it answers a next state. -/
theorem storeResult_eq_next {f : Byte → Byte → Byte} {fl : Byte → Byte → Flags → Flags} {d : Flags} {len : Nat}
    {dst : Loc} {src : Src} {s t : State} :
    storeResult f fl d len dst src s = .next t ↔
      ∃ o, operands s dst src = .next o ∧
        t = advance (putFlags (regPut s o.da (f o.a o.b)) (fl o.a o.b s.flags) d) len := by
  simp only [storeResult, andThen_eq_next, regWrite_eq_next, Host.Outcome.next.injEq]
  constructor
  · rintro ⟨o, ho, _, ⟨-, rfl⟩, rfl⟩; exact ⟨o, ho, rfl⟩
  · rintro ⟨o, ho, rfl⟩
    exact ⟨o, ho, _, ⟨(readable_eq_true.mp (operands_eq_next.mp ho).2.1).1, rfl⟩, rfl⟩

/-- Everything a testing instruction can do when it answers a next state. -/
theorem testResult_eq_next {f : Byte → Byte → Byte} {len : Nat} {dst : Loc} {src : Src} {s t : State} :
    testResult f len dst src s = .next t ↔
      ∃ o, operands s dst src = .next o ∧
        t = advance (putFlags s (logicFlags (f o.a o.b) s.flags) logicDefines) len := by
  simp only [testResult, andThen_eq_next, Host.Outcome.next.injEq, @eq_comm _ t]

theorem daRowFor_eq_next {f : Flags} {v : Byte} {row : DaRow} :
    daRowFor f v = .next row ↔ daRowOf f v = some row := by
  unfold daRowFor; split <;> simp_all

/-- Everything a decimal adjust can do when it answers a next state. -/
theorem decimalAdjust_eq_next {dst : Loc} {s t : State} :
    decimalAdjust dst s = .next t ↔
      ∃ da row, resolve s dst = .next da ∧ readable s da = true ∧ regClass s.cfg da ≠ .flags ∧
        flagsMeet s.undef.flags daReads = false ∧ daRowOf s.flags (regVal s da) = some row ∧
        t = advance ((putFlags (regPut s da (regVal s da + row.add))
          (daFlags row (regVal s da + row.add) s.draws s.flags) daDefines).setDraws (s.draws + 1)) 2 := by
  simp only [decimalAdjust, andThen_eq_next, mustBeModelled_eq_next, mustNotBeFlags_eq_next, regRead_eq_next,
    flagsFor_eq_next, daRowFor_eq_next, regWrite_eq_next, Host.Outcome.next.injEq]
  constructor
  · rintro ⟨da, hd, _, -, _, hc, _, ⟨hm, rfl⟩, _, ⟨hf, rfl⟩, row, hr, _, ⟨-, rfl⟩, rfl⟩
    exact ⟨da, row, hd, hm, hc, hf, hr, rfl⟩
  · rintro ⟨da, row, hd, hm, hc, hf, hr, rfl⟩
    have h := (readable_eq_true.mp hm).1
    exact ⟨da, hd, (), h, (), hc, _, ⟨hm, rfl⟩, _, ⟨hf, rfl⟩, row, hr, _, ⟨h, rfl⟩, rfl⟩

end Sys2Proof.Machine
end

