-- ==== Sys2Proof/Laws/Fetch.lean ====
section
/-! SUPPORT. What the reading of program memory, the fetch and the resolution of an operand can do, said once. -/

namespace Sys2Proof.Machine

/-- A read of `n` program bytes gives `n` bytes, and a shorter read from the same address a prefix of them. -/
theorem progBytes_take {m : List Host.Cell} {n a : Nat} {bs : List Byte} (h : progBytes m a n = .next bs) :
    bs.length = n ∧ ∀ k ≤ n, progBytes m a k = .next (bs.take k) := by
  induction n generalizing a bs with
  | zero => simp only [progBytes, Host.Outcome.next.injEq] at h; subst h; simp [progBytes]
  | succ n ih =>
    simp only [progBytes] at h
    split at h
    · simp at h
    · rename_i b hb
      obtain ⟨t, ht, h⟩ := andThen_eq_next.mp h
      simp only [Host.Outcome.next.injEq] at h
      subst h
      obtain ⟨h1, h2⟩ := ih ht
      refine ⟨by simp [h1], fun k hk => ?_⟩
      cases k with
      | zero => simp [progBytes]
      | succ k => simp [progBytes, hb, h2 k (by omega)]

theorem memRead_take {s : State} {a : Addr16} {n : Nat} {bs : List Byte} (h : memRead s a n = .next bs) :
    bs.length = n ∧ ∀ k ≤ n, memRead s a k = .next (bs.take k) := by
  unfold memRead at h
  split at h
  · simp at h
  · obtain ⟨h1, h2⟩ := progBytes_take h
    refine ⟨h1, fun k hk => ?_⟩
    unfold memRead
    rw [if_neg (by omega)]
    exact h2 k hk

theorem memRead_eq_next {s : State} {a : Addr16} {n : Nat} {bs : List Byte} :
    memRead s a n = .next bs ↔
      a.toNat + n ≤ s.cfg.progSize ∧ a.toNat + n ≤ 65536 ∧ progBytes s.prog a.toNat n = .next bs := by
  unfold memRead
  split
  · simp only [reduceCtorEq, false_iff]; omega
  · constructor
    · exact fun h => ⟨by omega, by omega, h⟩
    · exact fun h => h.2.2

theorem decodedOutcome_eq_next {bs : List Byte} {d : Decoded} {i : Instr} :
    decodedOutcome bs d = .next i ↔ ∃ rest, d = .instr i rest := by
  cases d <;> simp [decodedOutcome]

/-- A fetch that answers an instruction: pc is not END_PC, and the bytes the length table asks for decode to it. -/
theorem fetch_eq_next {s : State} {i : Instr} :
    fetch s = .next i ↔ s.cfg.endPc ≠ some s.pc ∧
      ∃ op n bytes rest, fetchOpCode s = .next op ∧ instrLength s.cfg.admitGkRows op = some n ∧
        memRead s s.pc n = .next bytes ∧ decode s.cfg.admitGkRows bytes = .instr i rest := by
  unfold fetch
  split
  · simp_all
  · rename_i he
    simp only [andThen_eq_next, ne_eq, he, not_false_eq_true, true_and]
    constructor
    · rintro ⟨op, ho, h⟩
      split at h
      · simp at h
      · rename_i n hn
        obtain ⟨bytes, hb, h⟩ := andThen_eq_next.mp h
        obtain ⟨rest, hr⟩ := decodedOutcome_eq_next.mp h
        exact ⟨op, n, bytes, rest, ho, hn, hb, hr⟩
    · rintro ⟨op, n, bytes, rest, ho, hn, hb, hr⟩
      exact ⟨op, ho, by simp [hn, hb, hr, decodedOutcome]⟩

/-! ### Operand addresses -/

theorem eaER_eq_next {rp : Result Byte} {e a : Addr12} :
    eaER rp e = .next a ↔
      (e.extractLsb' 4 8 = 0xEE ∧ ∃ p, rp = .next p ∧ a = wr p (e.extractLsb' 0 4)) ∨
      (e.extractLsb' 4 8 ≠ 0xEE ∧ e.extractLsb' 8 4 ≠ 0xE ∧ a = e) := by
  unfold eaER
  split
  · rename_i h
    simp only [h, andThen_eq_next, Host.Outcome.next.injEq, @eq_comm _ a, ne_eq, not_true_eq_false, true_and,
      false_and, or_false]
  · rename_i h
    split
    · rename_i h'
      simp only [h, h', reduceCtorEq, ne_eq, not_true_eq_false, false_and, and_false, or_false]
    · rename_i h'
      simp only [h, h', Host.Outcome.next.injEq, @eq_comm _ a, ne_eq, not_false_eq_true, true_and, false_and, false_or]

theorem eaInd_eq_next {rp p : Byte} {a : Addr12} :
    eaInd rp p = .next a ↔ p.extractLsb' 4 4 ≠ 0xE ∧ a = rp.extractLsb' 0 4 ++ p := by
  unfold eaInd
  split
  · rename_i h; simp only [h, reduceCtorEq, ne_eq, not_true_eq_false, false_and]
  · rename_i h; simp only [h, Host.Outcome.next.injEq, @eq_comm _ a, ne_eq, not_false_eq_true, true_and]

theorem eaInd_not_fault {rp p : Byte} {f : Fault} : eaInd rp p ≠ .fault f := by unfold eaInd; split <;> simp

theorem resolve_r_eq_next {s : State} {n : Nibble} {a : Addr12} :
    resolve s (.r n) = .next a ↔ s.undef.rp = false ∧ a = wr s.rp n := by
  simp only [resolve, andThen_eq_next, rpOf_eq_next, Host.Outcome.next.injEq]
  exact ⟨fun ⟨_, ⟨h, rfl⟩, e⟩ => ⟨h, e.symm⟩, fun ⟨h, e⟩ => ⟨_, ⟨h, rfl⟩, e.symm⟩⟩

theorem resolve_R_eq_next {s : State} {b : Byte} {a : Addr12} :
    resolve s (.R b) = .next a ↔ s.undef.rp = false ∧ a = eaR s.rp b := by
  simp only [resolve, andThen_eq_next, rpOf_eq_next, Host.Outcome.next.injEq]
  exact ⟨fun ⟨_, ⟨h, rfl⟩, e⟩ => ⟨h, e.symm⟩, fun ⟨h, e⟩ => ⟨_, ⟨h, rfl⟩, e.symm⟩⟩

theorem resolve_Ir_eq_next {s : State} {n : Nibble} {a : Addr12} :
    resolve s (.Ir n) = .next a ↔ s.undef.rp = false ∧ readable s (wr s.rp n) = true ∧
      eaInd s.rp (regVal s (wr s.rp n)) = .next a := by
  simp only [resolve, andThen_eq_next, rpOf_eq_next, regRead_eq_next]
  exact ⟨fun ⟨_, ⟨h, e⟩, _, ⟨hr, rfl⟩, hi⟩ => by subst e; exact ⟨h, hr, hi⟩,
    fun ⟨h, hr, hi⟩ => ⟨_, ⟨h, rfl⟩, _, ⟨hr, rfl⟩, hi⟩⟩

theorem resolve_IR_eq_next {s : State} {b : Byte} {a : Addr12} :
    resolve s (.IR b) = .next a ↔ s.undef.rp = false ∧ readable s (eaR s.rp b) = true ∧
      eaInd s.rp (regVal s (eaR s.rp b)) = .next a := by
  simp only [resolve, andThen_eq_next, rpOf_eq_next, regRead_eq_next]
  exact ⟨fun ⟨_, ⟨h, e⟩, _, ⟨hr, rfl⟩, hi⟩ => by subst e; exact ⟨h, hr, hi⟩,
    fun ⟨h, hr, hi⟩ => ⟨_, ⟨h, rfl⟩, _, ⟨hr, rfl⟩, hi⟩⟩

end Sys2Proof.Machine
end

