-- ==== Sys2Proof/Laws/Memory.lean ====
section
/-! SUPPORT. The cells: reading after a write, and the canonical form, which every memory operation keeps. -/

namespace Sys2Proof.Machine

theorem cellFind_insert_self (m : List Host.Cell) (k : Nat) (v : Byte) : cellFind (cellInsert m k v) k = some v := by
  induction m with
  | nil => simp [cellInsert, cellFind]
  | cons c t ih =>
    unfold cellInsert
    split
    · simp [cellFind]
    · split
      · simp [cellFind]
      · rename_i h; simp [cellFind, h, ih]

theorem cellFind_insert_ne (m : List Host.Cell) {k j : Nat} (v : Byte) (h : j ≠ k) :
    cellFind (cellInsert m k v) j = cellFind m j := by
  induction m with
  | nil => simp [cellInsert, cellFind, h.symm]
  | cons c t ih =>
    unfold cellInsert
    split
    · simp [cellFind, h.symm]
    · split
      · rename_i hc; simp [cellFind, hc, h.symm]
      · simp [cellFind, ih]

theorem cellFind_erase_self (m : List Host.Cell) (k : Nat) : cellFind (cellErase m k) k = none := by
  induction m with
  | nil => rfl
  | cons c t ih =>
    unfold cellErase at *
    by_cases h : c.1 = k <;> simp [h, cellFind] at ih ⊢ <;> exact ih

theorem cellFind_erase_ne (m : List Host.Cell) {k j : Nat} (h : j ≠ k) :
    cellFind (cellErase m k) j = cellFind m j := by
  induction m with
  | nil => rfl
  | cons c t ih =>
    unfold cellErase at *
    by_cases hc : c.1 = k
    · simp [hc, cellFind, h.symm] at ih ⊢; exact ih
    · simp [hc, cellFind] at ih ⊢; rw [ih]

/-- A location holds the value last written to it, whatever the list. -/
theorem regFileFind_write_self (blank : Option Byte) (m : List Host.Cell) (a : Addr12) (v : Byte) :
    regFileFind blank (regFileWrite blank m a v) a = some v := by
  unfold regFileFind regFileWrite
  split
  · simp [cellFind_erase_self, *]
  · simp [cellFind_insert_self]

/-- A write leaves every other location alone. -/
theorem regFileFind_write_ne (blank : Option Byte) (m : List Host.Cell) {a b : Addr12} (v : Byte) (h : b ≠ a) :
    regFileFind blank (regFileWrite blank m a v) b = regFileFind blank m b := by
  have hn : b.toNat ≠ a.toNat := fun e => h (BitVec.eq_of_toNat_eq e)
  unfold regFileFind regFileWrite
  split
  · rw [cellFind_erase_ne _ hn]
  · rw [cellFind_insert_ne _ _ hn]

/-! ### Canonical form -/

/-- An inserted cell is the new one or an old one. -/
theorem mem_cellInsert {m : List Host.Cell} {k : Nat} {v : Byte} {e : Host.Cell} (h : e ∈ cellInsert m k v) :
    e = (k, v) ∨ e ∈ m := by
  induction m with
  | nil => simpa [cellInsert] using h
  | cons c t ih =>
    unfold cellInsert at h
    split at h
    · simpa using h
    · split at h
      · rcases List.mem_cons.mp h with h | h
        · exact .inl h
        · exact .inr (List.mem_cons_of_mem _ h)
      · rcases List.mem_cons.mp h with h | h
        · exact .inr (h ▸ List.mem_cons_self)
        · exact (ih h).imp_right (List.mem_cons_of_mem _)

theorem cellsRising_cons {c : Host.Cell} {t : List Host.Cell} :
    cellsRising (c :: t) = true ↔ (∀ e ∈ t, c.1 < e.1) ∧ cellsRising t = true := by
  simp [cellsRising]

theorem cellsRising_insert {m : List Host.Cell} (k : Nat) (v : Byte) (h : cellsRising m = true) :
    cellsRising (cellInsert m k v) = true := by
  induction m with
  | nil => simp [cellInsert, cellsRising]
  | cons c t ih =>
    obtain ⟨hc, ht⟩ := cellsRising_cons.mp h
    unfold cellInsert
    split
    · rename_i hk
      refine cellsRising_cons.mpr ⟨fun e he => ?_, h⟩
      rcases List.mem_cons.mp he with rfl | he
      · exact hk
      · exact Nat.lt_trans hk (hc e he)
    · split
      · rename_i hk
        exact cellsRising_cons.mpr ⟨fun e he => hk ▸ hc e he, ht⟩
      · refine cellsRising_cons.mpr ⟨fun e he => ?_, ih ht⟩
        rcases mem_cellInsert he with rfl | he
        · show c.1 < k
          omega
        · exact hc e he

theorem cellsRising_erase {m : List Host.Cell} (k : Nat) (h : cellsRising m = true) :
    cellsRising (cellErase m k) = true := by
  induction m with
  | nil => rfl
  | cons c t ih =>
    obtain ⟨hc, ht⟩ := cellsRising_cons.mp h
    have ih := ih ht
    unfold cellErase at *
    by_cases hk : c.1 = k
    · simpa [hk] using ih
    · simp only [hk, ne_eq, not_false_eq_true, decide_true, List.filter_cons_of_pos]
      exact cellsRising_cons.mpr ⟨fun e he => hc e (List.mem_filter.mp he).1, ih⟩

theorem mem_regFileWrite {blank : Option Byte} {m : List Host.Cell} {a : Addr12} {v : Byte} {e : Host.Cell}
    (h : e ∈ regFileWrite blank m a v) : e = (a.toNat, v) ∨ e ∈ m := by
  unfold regFileWrite at h
  split at h
  · exact .inr (List.mem_filter.mp h).1
  · exact mem_cellInsert h

theorem regFileWrite_wf {blank : Option Byte} {m : List Host.Cell} (a : Addr12) (v : Byte)
    (h : regFileWf blank m = true) : regFileWf blank (regFileWrite blank m a v) = true := by
  simp only [regFileWf, Bool.and_eq_true, List.all_eq_true, decide_eq_true_eq] at h ⊢
  obtain ⟨hr, hm⟩ := h
  unfold regFileWrite
  split
  · exact ⟨cellsRising_erase _ hr, fun e he => hm e (List.mem_filter.mp he).1⟩
  · rename_i hv
    refine ⟨cellsRising_insert _ _ hr, fun e he => ?_⟩
    rcases mem_cellInsert he with rfl | he
    · exact ⟨a.isLt, hv⟩
    · exact hm e he

theorem progWrite_wf {m : List Host.Cell} {a : Nat} (v : Byte) (ha : a < 65536) (h : progWf m = true) :
    progWf (progWrite m a v) = true := by
  simp only [progWf, Bool.and_eq_true, List.all_eq_true, decide_eq_true_eq] at h ⊢
  refine ⟨cellsRising_insert _ _ h.1, fun e he => ?_⟩
  rcases mem_cellInsert he with rfl | he
  · exact ha
  · exact h.2 e he

theorem placeBytes_wf {m : List Host.Cell} {a : Nat} {bs : List Byte} (h : progWf m = true) :
    progWf (placeBytes m a bs) = true := by
  induction bs generalizing m a with
  | nil => exact h
  | cons b t ih =>
    unfold placeBytes
    split
    · exact ih (progWrite_wf b ‹_› h)
    · exact h

theorem regPut_wf {s : State} (a : Addr12) (v : Byte) (h : Memory.wf s = true) : Memory.wf (regPut s a v) = true := by
  simp only [Memory.wf, Bool.and_eq_true] at h ⊢
  rw [regPut_cfg, regPut_prog]
  refine ⟨?_, h.2⟩
  unfold regPut
  split <;> first | exact h.1 | exact regFileWrite_wf _ _ h.1

theorem withFetchWord_wf {s : State} (nbits w : Nat) (h : Memory.wf s = true) :
    Memory.wf (s.withFetchWord nbits w) = true := by
  simp only [Memory.wf, Bool.and_eq_true] at h ⊢
  exact ⟨h.1, placeBytes_wf h.2⟩

theorem reset_memory_wf : Memory.wf State.reset = true := by decide

end Sys2Proof.Machine
end

