-- ==== Sys2Proof/Laws/Exec.lean ====
section
/-! SUPPORT. What each instruction can do when it answers a next state, said once, and how the locations of a state
after a write read. -/

namespace Sys2Proof.Machine

/-! ### The class of a location -/

theorem kindClass_ne_rp (k : LocKind) : kindClass k ≠ .rp := by cases k <;> simp [kindClass]

theorem kindClass_ne_flags (k : LocKind) : kindClass k ≠ .flags := by cases k <;> simp [kindClass]

/-- RP has no location but the one at `rpAddr`. -/
theorem addr_of_regClass_rp {c : Config} {a : Addr12} (h : regClass c a = .rp) : a = c.rpAddr := by
  unfold regClass at h
  split at h
  · exact absurd h (kindClass_ne_rp _)
  · split at h
    · assumption
    · split at h <;> simp at h

/-- Flags has no location but the one at `flagsAddr`. -/
theorem addr_of_regClass_flags {c : Config} {a : Addr12} (h : regClass c a = .flags) : a = c.flagsAddr := by
  unfold regClass at h
  split at h
  · exact absurd h (kindClass_ne_flags _)
  · split at h
    · simp at h
    · split at h
      · assumption
      · simp at h

theorem modelled_eq_true {c : Config} {a : Addr12} :
    modelled c a = true ↔ regClass c a ≠ .device ∧ regClass c a ≠ .absent := by
  unfold modelled; cases regClass c a <;> simp

theorem readable_of_resultPlace {s : State} {a : Addr12} (h : resultPlace s a = true) :
    readable s a = true ∧ regClass s.cfg a ≠ .flags := by simpa [resultPlace] using h

/-! ### Reading after a write -/

theorem flagsOfByte_flagsToByte (f : Flags) : flagsOfByte (flagsToByte f) = f := by
  obtain ⟨c, z, s, v, d, h, f2, f1⟩ := f
  cases c <;> cases z <;> cases s <;> cases v <;> cases d <;> cases h <;> cases f2 <;> cases f1 <;> rfl

theorem flagsToByte_flagsOfByte (b : Byte) : flagsToByte (flagsOfByte b) = b := by
  revert b; decide

theorem regVal_put_self (s : State) (a : Addr12) (v : Byte) : regVal (regPut s a v) a = v := by
  unfold regVal
  rw [regPut_cfg]
  unfold regPut
  split <;> simp [flagsToByte_flagsOfByte, regFileFind_write_self]

/-- A modelled location that has been written is not unwritten. -/
theorem unwritten_put_self (s : State) (a : Addr12) (v : Byte) : unwritten (regPut s a v) a = false := by
  unfold unwritten
  rw [regPut_cfg]
  unfold regPut
  split <;> simp [flagsMinus_allFlags, flagsMeet_zero_left, regFileFind_write_self]

/-- The byte of storage behind a location a write does not name. -/
theorem regFileFind_put_ne (s : State) {a b : Addr12} (v : Byte) (h : b ≠ a) :
    regFileFind s.cfg.blank (regPut s a v).regs b = regFileFind s.cfg.blank s.regs b := by
  unfold regPut; split <;> first | rfl | exact regFileFind_write_ne _ _ _ h

/-- A write to another location leaves RP, if this is its location, and the flags, if this is theirs. -/
theorem regPut_other (s : State) {a b : Addr12} (v : Byte) (h : b ≠ a) :
    (regClass s.cfg b = .rp → (regPut s a v).rp = s.rp ∧ (regPut s a v).undef.rp = s.undef.rp) ∧
    (regClass s.cfg b = .flags →
      (regPut s a v).flags = s.flags ∧ (regPut s a v).undef.flags = s.undef.flags) := by
  constructor <;> intro hb
  · have ha : regClass s.cfg a ≠ .rp := fun ha => h ((addr_of_regClass_rp hb).trans (addr_of_regClass_rp ha).symm)
    simp [regPut_rp, regPut_undef_rp, ha]
  · have ha : regClass s.cfg a ≠ .flags := fun ha =>
      h ((addr_of_regClass_flags hb).trans (addr_of_regClass_flags ha).symm)
    simp [regPut_flags, regPut_undef_flags, ha]

theorem regVal_put_ne (s : State) {a b : Addr12} (v : Byte) (h : b ≠ a) : regVal (regPut s a v) b = regVal s b := by
  unfold regVal
  rw [regPut_cfg]
  split <;> rename_i hb
  · exact ((regPut_other s v h).1 hb).1
  · rw [((regPut_other s v h).2 hb).1]
  all_goals rw [regFileFind_put_ne _ _ h]

theorem unwritten_put_ne (s : State) {a b : Addr12} (v : Byte) (h : b ≠ a) :
    unwritten (regPut s a v) b = unwritten s b := by
  unfold unwritten
  rw [regPut_cfg]
  split <;> rename_i hb
  · exact ((regPut_other s v h).1 hb).2
  · rw [((regPut_other s v h).2 hb).2]
  all_goals first | rfl | rw [regFileFind_put_ne _ _ h]

/-- A read after a write to the same location gives the value written. -/
theorem regRead_put_self {s : State} {a : Addr12} (v : Byte) (h : modelled s.cfg a = true) :
    regRead (regPut s a v) a = .next v :=
  regRead_eq_next.mpr ⟨readable_eq_true.mpr ⟨by rwa [regPut_cfg], unwritten_put_self _ _ _⟩, regVal_put_self _ _ _⟩

/-- A write leaves the read of every other location alone. -/
theorem regRead_put_ne (s : State) {a b : Addr12} (v : Byte) (h : b ≠ a) : regRead (regPut s a v) b = regRead s b :=
  regRead_congr (by rw [regPut_cfg]) (unwritten_put_ne s v h) (regVal_put_ne s v h)

/-- A change of the flags shows at the Flags location only. -/
theorem regRead_putFlags (s : State) (f d : Flags) {a : Addr12} (h : regClass s.cfg a ≠ .flags) :
    regRead (putFlags s f d) a = regRead s a := by
  refine regRead_congr rfl ?_ ?_
  · unfold unwritten; simp only [putFlags_cfg]; split <;> simp_all
  · unfold regVal; simp only [putFlags_cfg]; split <;> simp_all

/-- A change of RP shows at the RP location only. -/
theorem regRead_putRp (s : State) (v : Byte) {a : Addr12} (h : regClass s.cfg a ≠ .rp) :
    regRead (putRp s v) a = regRead s a := by
  refine regRead_congr rfl ?_ ?_
  · unfold unwritten; simp only [putRp_cfg]; split <;> simp_all
  · unfold regVal; simp only [putRp_cfg]; split <;> simp_all

theorem regRead_advance (s : State) (n : Nat) (a : Addr12) : regRead (advance s n) a = regRead s a := rfl

theorem regRead_setPc (s : State) (v : Addr16) (a : Addr12) : regRead (s.setPc v) a = regRead s a := rfl

theorem regRead_setDraws (s : State) (n : Nat) (a : Addr12) : regRead (s.setDraws n) a = regRead s a := rfl

/-- Where everything is defined, a location is readable if it is modelled. -/
theorem unwritten_of_allDefined {s : State} (h : AllDefined s) (a : Addr12) : unwritten s a = false := by
  obtain ⟨hu, hb⟩ := h
  obtain ⟨v, hv⟩ := Option.ne_none_iff_exists'.mp hb
  unfold unwritten
  rw [hu]
  split <;> first | rfl | simp [regFileFind, hv]

/-! ### What can fault -/

theorem undefinedAt_of_allDefined {s : State} (h : AllDefined s) (a : Addr12) : undefinedAt s a = false := by
  have hu := unwritten_of_allDefined h a
  simp [undefinedAt, h.1, Undef.nothing, flagsMeet_zero_left, hu]

theorem regRead_fault {s : State} {a : Addr12} {f : Fault} (h : regRead s a = .fault f) : UnwrittenFault s f := by
  obtain ⟨hm, hu, hf⟩ := regRead_eq_fault.mp h
  exact ⟨a, hf, by simp [undefinedAt, hm, hu]⟩

theorem rpOf_fault {s : State} {f : Fault} (h : rpOf s = .fault f) : UnwrittenFault s f := by
  obtain ⟨hu, hf⟩ := rpOf_eq_fault.mp h
  exact ⟨_, hf, by simp [undefinedAt, hu]⟩

theorem flagsFor_fault {s : State} {m : Flags} {f : Fault} (h : flagsFor s m = .fault f) : UnwrittenFault s f := by
  obtain ⟨hu, hf⟩ := flagsFor_eq_fault.mp h
  refine ⟨_, hf, ?_⟩
  have : flagsMeet s.undef.flags allFlags = true := by
    simp only [flagsMeet, allFlags, Bool.or_eq_true, Bool.and_eq_true] at hu ⊢
    grind
  simp [undefinedAt, this]

theorem resolve_fault {s : State} {l : Loc} {f : Fault} (h : resolve s l = .fault f) : UnwrittenFault s f := by
  have direct (g : Byte → Addr12) (h : andThen (rpOf s) (fun rp => .next (g rp)) = .fault f) :
      UnwrittenFault s f := by
    rcases andThen_eq_fault.mp h with h | ⟨_, -, h⟩
    · exact rpOf_fault h
    · simp at h
  have via (g : Byte → Addr12)
      (h : andThen (rpOf s) (fun rp => andThen (regRead s (g rp)) (eaInd rp)) = .fault f) : UnwrittenFault s f := by
    rcases andThen_eq_fault.mp h with h | ⟨_, -, h⟩
    · exact rpOf_fault h
    · rcases andThen_eq_fault.mp h with h | ⟨_, -, h⟩
      · exact regRead_fault h
      · exact absurd h eaInd_not_fault
  cases l with
  | r n => exact direct _ h
  | R b => exact direct _ h
  | ER e =>
    simp only [resolve, eaER] at h
    split at h
    · exact direct _ h
    · split at h <;> simp at h
  | Ir n => exact via _ h
  | IR b => exact via _ h

/-- Reading operands faults only on something undefined. -/
theorem operands_fault {s : State} {dst : Loc} {src : Src} {f : Fault} (h : operands s dst src = .fault f) :
    UnwrittenFault s f := by
  cases src <;>
    simp only [operands, andThen_eq_fault, mustBeModelled_not_fault, mustNotBeFlags_not_fault, false_or, reduceCtorEq,
      and_false, exists_const, or_false] at h
  · rcases h with h | ⟨_, -, h | ⟨_, -, _, -, _, -, _, -, h | ⟨_, -, h⟩⟩⟩
    · exact resolve_fault h
    · exact resolve_fault h
    · exact regRead_fault h
    · exact regRead_fault h
  · rcases h with h | ⟨_, -, _, -, _, -, h⟩
    · exact resolve_fault h
    · exact regRead_fault h

/-! ### The forms of one shape -/

theorem exec_of_addForm {i : Instr} {s : State} {dst : Loc} {src : Src} (h : addForm i = some (dst, src)) :
    exec i s = addResult i.length dst src s := by
  cases i <;> simp_all [addForm] <;> (obtain ⟨rfl, rfl⟩ := h; rfl)

theorem exec_of_andForm {i : Instr} {s : State} {dst : Loc} {src : Src} (h : andForm i = some (dst, src)) :
    exec i s = andResult i.length dst src s := by
  cases i <;> simp_all [andForm] <;> (obtain ⟨rfl, rfl⟩ := h; rfl)

/-- Everything an ADD or ADDX form can do when it answers a next state. -/
theorem addResult_eq_next {len : Nat} {dst : Loc} {src : Src} {s t : State} :
    addResult len dst src s = .next t ↔
      ∃ o, operands s dst src = .next o ∧
        t = advance (putFlags (regPut s o.da (o.a + o.b)) (addFlags o.a o.b s.flags) addDefines) len :=
  storeResult_eq_next

/-- Everything an AND form can do when it answers a next state. -/
theorem andResult_eq_next {len : Nat} {dst : Loc} {src : Src} {s t : State} :
    andResult len dst src s = .next t ↔
      ∃ o, operands s dst src = .next o ∧
        t = advance (putFlags (regPut s o.da (o.a &&& o.b)) (logicFlags (o.a &&& o.b) s.flags) logicDefines) len := by
  unfold andResult
  exact storeResult_eq_next

theorem writes_of_addForm {i : Instr} {s : State} {dst : Loc} {src : Src} (h : addForm i = some (dst, src)) :
    writes s i = placeOf s dst := by
  cases i <;> simp_all [addForm] <;> (obtain ⟨rfl, rfl⟩ := h; rfl)

theorem writes_of_andForm {i : Instr} {s : State} {dst : Loc} {src : Src} (h : andForm i = some (dst, src)) :
    writes s i = placeOf s dst := by
  cases i <;> simp_all [andForm] <;> (obtain ⟨rfl, rfl⟩ := h; rfl)

theorem placeOf_of_next {s : State} {l : Loc} {a : Addr12} (h : resolve s l = .next a) : placeOf s l = [a] := by
  simp [placeOf, h]

theorem writes_of_testForm {i : Instr} {s : State} {p : Loc × Src} (h : testForm i = some p) : writes s i = [] := by
  cases i <;> simp_all [testForm] <;> rfl

/-! ### The other instructions -/

theorem execLd_eq_next {d : Nibble} {im : Byte} {s t : State} :
    execLd_r_IM d im s = .next t ↔
      s.undef.rp = false ∧ modelled s.cfg (wr s.rp d) = true ∧ t = advance (regPut s (wr s.rp d) im) 2 := by
  simp only [execLd_r_IM, andThen_eq_next, resolve_r_eq_next, regWrite_eq_next, Host.Outcome.next.injEq]
  constructor
  · rintro ⟨_, ⟨h, rfl⟩, _, ⟨hm, rfl⟩, rfl⟩; exact ⟨h, hm, rfl⟩
  · rintro ⟨h, hm, rfl⟩; exact ⟨_, ⟨h, rfl⟩, _, ⟨hm, rfl⟩, rfl⟩

theorem mustBeEven_eq_next {da sa : Addr12} {u : Unit} :
    mustBeEven da sa = .next u ↔ da.getLsbD 0 = false ∧ sa.getLsbD 0 = false := by
  unfold mustBeEven
  split <;> rename_i h
  · simp only [reduceCtorEq, false_iff]
    rintro ⟨h1, h2⟩
    rw [h1, h2] at h
    exact absurd h (by decide)
  · rw [Bool.not_eq_true, Bool.or_eq_false_iff] at h
    exact ⟨fun _ => h, fun _ => rfl⟩

theorem execLdwx_eq_next {e1 e2 : Addr12} {s t : State} :
    execLdwx_ER_ER e1 e2 s = .next t ↔
      ∃ da sa, resolve s (.ER e1) = .next da ∧ resolve s (.ER e2) = .next sa ∧
        da.getLsbD 0 = false ∧ sa.getLsbD 0 = false ∧
        modelled s.cfg da = true ∧ modelled s.cfg (da + 1) = true ∧
        readable s sa = true ∧ readable s (sa + 1) = true ∧
        t = advance (regPut (regPut s da (regVal s sa)) (da + 1) (regVal s (sa + 1))) 5 := by
  simp only [execLdwx_ER_ER, andThen_eq_next, mustBeEven_eq_next, mustBeModelled_eq_next, regRead_eq_next,
    regWrite_eq_next, Host.Outcome.next.injEq]
  constructor
  · rintro ⟨da, h1, sa, h2, _, ⟨o1, o2⟩, _, m1, _, m2, _, -, _, -, _, ⟨r1, rfl⟩, _, ⟨r2, rfl⟩, _, ⟨-, rfl⟩, _,
      ⟨-, rfl⟩, rfl⟩
    exact ⟨da, sa, h1, h2, o1, o2, m1, m2, r1, r2, rfl⟩
  · rintro ⟨da, sa, h1, h2, o1, o2, m1, m2, r1, r2, rfl⟩
    exact ⟨da, h1, sa, h2, (), ⟨o1, o2⟩, (), m1, (), m2, (), (readable_eq_true.mp r1).1, (),
      (readable_eq_true.mp r2).1, _, ⟨r1, rfl⟩, _, ⟨r2, rfl⟩, _, ⟨m1, rfl⟩, _, ⟨by rwa [regPut_cfg], rfl⟩, rfl⟩

theorem execDjnz_eq_next {d : Nibble} {ra : Byte} {s t : State} :
    execDjnz d ra s = .next t ↔
      s.undef.rp = false ∧ readable s (wr s.rp d) = true ∧
        t = (regPut s (wr s.rp d) (regVal s (wr s.rp d) - 1)).setPc
          (if regVal s (wr s.rp d) - 1 ≠ 0 then relTarget s 2 ra else nextPc s 2) := by
  simp only [execDjnz, andThen_eq_next, resolve_r_eq_next, regRead_eq_next, regWrite_eq_next,
    Host.Outcome.next.injEq]
  constructor
  · rintro ⟨_, ⟨h, rfl⟩, _, ⟨hr, rfl⟩, _, ⟨-, rfl⟩, rfl⟩; exact ⟨h, hr, rfl⟩
  · rintro ⟨h, hr, rfl⟩; exact ⟨_, ⟨h, rfl⟩, _, ⟨hr, rfl⟩, _, ⟨(readable_eq_true.mp hr).1, rfl⟩, rfl⟩

theorem execJr_eq_next {cc : Cond} {ra : Byte} {s t : State} :
    execJr cc ra s = .next t ↔ flagsMeet s.undef.flags (condReads cc) = false ∧
      t = s.setPc (if condHolds s.flags cc then relTarget s 2 ra else nextPc s 2) := by
  simp only [execJr, andThen_eq_next, flagsFor_eq_next, Host.Outcome.next.injEq]
  exact ⟨fun ⟨_, ⟨h, e⟩, ht⟩ => by subst e; exact ⟨h, ht.symm⟩, fun ⟨h, ht⟩ => ⟨_, ⟨h, rfl⟩, ht.symm⟩⟩

theorem execJp_eq_next {cc : Cond} {da16 : Addr16} {s t : State} :
    execJp cc da16 s = .next t ↔ flagsMeet s.undef.flags (condReads cc) = false ∧
      t = s.setPc (if condHolds s.flags cc then da16 else nextPc s 3) := by
  simp only [execJp, andThen_eq_next, flagsFor_eq_next, Host.Outcome.next.injEq]
  exact ⟨fun ⟨_, ⟨h, e⟩, ht⟩ => by subst e; exact ⟨h, ht.symm⟩, fun ⟨h, ht⟩ => ⟨_, ⟨h, rfl⟩, ht.symm⟩⟩

theorem execBrk_eq_next {s t : State} : execBrk s = .next t ↔ s.cfg.brkMode = .nop ∧ t = advance s 1 := by
  unfold execBrk; split <;> simp_all [@eq_comm _ t]

/-! ### The step -/

/-- A step that answers a next state has fetched an instruction and run it. -/
theorem step_eq_next {s t : State} : step s = .next t ↔ ∃ i, fetch s = .next i ∧ exec i s = .next t :=
  andThen_eq_next

end Sys2Proof.Machine
end

