-- ==== Sys2Proof/Laws/PerInstr.lean ====
section
/-! SUPPORT. Statements made per instruction: EncodedLength, the encoder writes as many bytes as the length of R80
says, one to five. -/

namespace Sys2Proof.Laws.EncodedLength

def Statement (i : Instr) : Prop := (encode i).length = i.length ∧ 1 ≤ i.length ∧ i.length ≤ maxLength

theorem within {i : Instr} (h : (encode i).length = i.length)
    (hl : (decide (1 ≤ i.length) && decide (i.length ≤ maxLength)) = true) : Statement i := by
  simp only [Bool.and_eq_true, decide_eq_true_eq] at hl
  exact ⟨h, hl⟩

theorem brk : Statement (.brk) := within rfl rfl
theorem srp (im : Byte) : Statement (.srp im) := within rfl rfl
theorem add_r_r (d : Nibble) (r : Nibble) : Statement (.add_r_r d r) := within rfl rfl
theorem add_r_Ir (d : Nibble) (r : Nibble) : Statement (.add_r_Ir d r) := within rfl rfl
theorem add_R_R (db : Byte) (sb : Byte) : Statement (.add_R_R db sb) := within rfl rfl
theorem add_R_IR (db : Byte) (sb : Byte) : Statement (.add_R_IR db sb) := within rfl rfl
theorem add_R_IM (db : Byte) (im : Byte) : Statement (.add_R_IM db im) := within rfl rfl
theorem add_IR_IM (db : Byte) (im : Byte) : Statement (.add_IR_IM db im) := within rfl rfl
theorem addx_ER_ER (e1 : Addr12) (e2 : Addr12) : Statement (.addx_ER_ER e1 e2) := within rfl rfl
theorem addx_ER_IM (e1 : Addr12) (im : Byte) : Statement (.addx_ER_IM e1 im) := within rfl rfl
theorem djnz (d : Nibble) (ra : Byte) : Statement (.djnz d ra) := within rfl rfl
theorem jr (cc : Cond) (ra : Byte) : Statement (.jr cc ra) := within rfl rfl
theorem ld_r_IM (d : Nibble) (im : Byte) : Statement (.ld_r_IM d im) := within rfl rfl
theorem ldwx_ER_ER (e1 : Addr12) (e2 : Addr12) : Statement (.ldwx_ER_ER e1 e2) := within rfl rfl
theorem tcmx_ER_ER (e1 : Addr12) (e2 : Addr12) : Statement (.tcmx_ER_ER e1 e2) := within rfl rfl
theorem tcmx_ER_IM (e1 : Addr12) (im : Byte) : Statement (.tcmx_ER_IM e1 im) := within rfl rfl
theorem tmx_ER_ER (e1 : Addr12) (e2 : Addr12) : Statement (.tmx_ER_ER e1 e2) := within rfl rfl
theorem tmx_ER_IM (e1 : Addr12) (im : Byte) : Statement (.tmx_ER_IM e1 im) := within rfl rfl
theorem and_r_r (d : Nibble) (r : Nibble) : Statement (.and_r_r d r) := within rfl rfl
theorem and_r_Ir (d : Nibble) (r : Nibble) : Statement (.and_r_Ir d r) := within rfl rfl
theorem and_R_R (db : Byte) (sb : Byte) : Statement (.and_R_R db sb) := within rfl rfl
theorem and_R_IR (db : Byte) (sb : Byte) : Statement (.and_R_IR db sb) := within rfl rfl
theorem and_R_IM (db : Byte) (im : Byte) : Statement (.and_R_IM db im) := within rfl rfl
theorem and_IR_IM (db : Byte) (im : Byte) : Statement (.and_IR_IM db im) := within rfl rfl
theorem da_R (db : Byte) : Statement (.da_R db) := within rfl rfl
theorem da_IR (db : Byte) : Statement (.da_IR db) := within rfl rfl
theorem jp (cc : Cond) (da16 : Addr16) : Statement (.jp cc da16) := within rfl rfl

end Sys2Proof.Laws.EncodedLength
end

