-- ==== Sys2Proof/Tests/Slice0.lean ====
section
/-! SUPPORT. Tests: expected results are those of 95_test_vectors.md or worked out by hand from the rule a test names;
and for each obligation a witness of its hypotheses. -/

namespace Sys2Proof.Tests

open Sys2Proof.Machine

/-! ### Helpers -/

def nextAnd (o : Result State) (p : State → Bool) : Bool :=
  match o with
  | .next t => p t
  | .fault _ => false
  | .refused _ => false

def refusedAs (o : Result State) (q : Refusal) : Bool :=
  match o with
  | .refused r => r == q
  | .next _ => false
  | .fault _ => false

def faultsAs (o : Result State) (f : Fault) : Bool :=
  match o with
  | .fault g => g == f
  | .next _ => false
  | .refused _ => false

/-- Reset with the general-knowledge rows admitted. -/
def launch : State := State.reset.setCfg { Config.default with admitGkRows := true }

/-- A launch with RP and some locations set; everything else is 0. -/
def given (rp : Byte) (cells : List (Addr12 × Byte)) : State :=
  cells.foldl (fun s c => regPut s c.1 c.2) (launch.setRp rp)

/-- A launch as 95_test_vectors.md has it: what is not given is undefined. -/
def bare : State := (launch.setUndef ⟨true, allFlags⟩).setCfg { launch.cfg with blank := none }

def bareWith (cells : List (Addr12 × Byte)) : State := cells.foldl (fun s c => regPut s c.1 c.2) bare

/-- One step on the bytes placed at pc. -/
def stepOn (pc : Addr16) (s : State) (bs : List Byte) : Result State :=
  step ((s.setPc pc).setProg (placeBytes [] pc.toNat bs))

/-- The six CPU flags. -/
def czsvdh (s : State) : List Bool := [s.flags.c, s.flags.z, s.flags.s, s.flags.v, s.flags.d, s.flags.h]

def withFlags (c z s v : Bool) : State := launch.setFlags ⟨c, z, s, v, false, false, false, false⟩

def withBrk (m : BrkMode) : State := State.reset.setCfg { Config.default with brkMode := m }

def withEnd (pc : Addr16) : State := State.reset.setCfg { Config.default with endPc := some pc }

/-- Flags kept from being a register: its address is of class device (D4). -/
def flagsAsDevice : State :=
  launch.setCfg { launch.cfg with regMap := ⟨0xFFC, 0xFFC, .device⟩ :: Config.defaultMap }

/-! ### Well-formedness: an ill-formed term for each check, and its neighbours that pass -/

theorem test_wellFormed_er_destination : (Instr.addx_ER_IM 0xEF0 0x01).wellFormed = false := by decide
theorem test_wellFormed_er_source : (Instr.addx_ER_ER 0x200 0xE10).wellFormed = false := by decide
theorem test_wellFormed_tests :
    (Instr.tcmx_ER_IM 0xE00 0).wellFormed = false ∧ (Instr.tmx_ER_ER 0xEDF 0x000).wellFormed = false := by decide
theorem test_wellFormed_ldwx_odd_destination : (Instr.ldwx_ER_ER 0x345 0x234).wellFormed = false := by decide
theorem test_wellFormed_ldwx_odd_source : (Instr.ldwx_ER_ER 0x346 0xEE1).wellFormed = false := by decide
theorem test_wellFormed_accepts :
    (Instr.addx_ER_ER 0xEE4 0xF00).wellFormed = true ∧ (Instr.ldwx_ER_ER 0xEE2 0x234).wellFormed = true := by decide

/-! ### Decoding, written out bit by bit from R82 to R93 -/

theorem test_decode_brk : decode true [0b00000000] = .instr .brk [] := by decide
theorem test_decode_srp : decode true [0b00000001, 0b00100000] = .instr (.srp 0x20) [] := by decide
theorem test_decode_add_r_r : decode true [0b00000010, 0b00010000] = .instr (.add_r_r 1 0) [] := by decide
theorem test_decode_add_r_Ir : decode true [0b00000011, 0b00100011] = .instr (.add_r_Ir 2 3) [] := by decide
theorem test_decode_add_R_R :
    decode true [0b00000100, 0b01000001, 0b01000000] = .instr (.add_R_R 0x40 0x41) [] := by decide
theorem test_decode_add_R_IR :
    decode true [0b00000101, 0b00100000, 0b00100001] = .instr (.add_R_IR 0x21 0x20) [] := by decide
theorem test_decode_add_R_IM :
    decode true [0b00000110, 0b11100101, 0b10000000] = .instr (.add_R_IM 0xE5 0x80) [] := by decide
theorem test_decode_add_IR_IM :
    decode true [0b00000111, 0b00100000, 0b00000001] = .instr (.add_IR_IM 0x20 0x01) [] := by decide
theorem test_decode_addx_ER_ER :
    decode true [0b00001000, 0b10110001, 0b00100110, 0b00110100] = .instr (.addx_ER_ER 0x634 0xB12) [] := by decide
theorem test_decode_addx_ER_IM :
    decode true [0b00001001, 0b00000001, 0b00001011, 0b01010010] = .instr (.addx_ER_IM 0xB52 0x01) [] := by decide
theorem test_decode_djnz : decode true [0b00111010, 0b11111110] = .instr (.djnz 3 0xFE) [] := by decide
theorem test_decode_jr : decode true [0b11101011, 0b10000000] = .instr (.jr .nz 0x80) [] := by decide
theorem test_decode_ld_r_IM : decode true [0b11111100, 0b11011111] = .instr (.ld_r_IM 15 0xDF) [] := by decide
theorem test_decode_ldwx :
    decode true [0b00011111, 0b11101000, 0b00100011, 0b01000011, 0b01000110] =
      .instr (.ldwx_ER_ER 0x346 0x234) [] := by decide
theorem test_decode_tcmx_ER_ER :
    decode true [0b01101000, 0b01000010, 0b00001101, 0b11010100] = .instr (.tcmx_ER_ER 0xDD4 0x420) [] := by decide
theorem test_decode_tcmx_ER_IM :
    decode true [0b01101001, 0b00000010, 0b00001011, 0b01010010] = .instr (.tcmx_ER_IM 0xB52 0x02) [] := by decide
theorem test_decode_tmx_ER_ER :
    decode true [0b01111000, 0b00100100, 0b01100111, 0b10001001] = .instr (.tmx_ER_ER 0x789 0x246) [] := by decide
theorem test_decode_tmx_ER_IM :
    decode true [0b01111001, 0b00000010, 0b00000000, 0b00010011] = .instr (.tmx_ER_IM 0x013 0x02) [] := by decide
theorem test_decode_and_r_r : decode true [0b01010010, 0b00010010] = .instr (.and_r_r 1 2) [] := by decide
theorem test_decode_and_r_Ir : decode true [0b01010011, 0b00100011] = .instr (.and_r_Ir 2 3) [] := by decide
theorem test_decode_and_R_R :
    decode true [0b01010100, 0b01000001, 0b01000000] = .instr (.and_R_R 0x40 0x41) [] := by decide
theorem test_decode_and_R_IR :
    decode true [0b01010101, 0b00100000, 0b00100001] = .instr (.and_R_IR 0x21 0x20) [] := by decide
theorem test_decode_and_R_IM :
    decode true [0b01010110, 0b11101111, 0b11011111] = .instr (.and_R_IM 0xEF 0xDF) [] := by decide
theorem test_decode_and_IR_IM :
    decode true [0b01010111, 0b00100000, 0b01111111] = .instr (.and_IR_IM 0x20 0x7F) [] := by decide
theorem test_decode_da_R : decode true [0b01000000, 0b01000001] = .instr (.da_R 0x41) [] := by decide
theorem test_decode_da_IR : decode true [0b01000001, 0b01000000] = .instr (.da_IR 0x40) [] := by decide
theorem test_decode_jp : decode true [0b00111101, 0b00010010, 0b00110100] = .instr (.jp .ule 0x1234) [] := by decide
/-- F9, M11, T3, L7, K3 -/
theorem test_decode_refuses :
    decode true [0x66, 0x02, 0x0B, 0x52] = .unknownOpCode [0x66] ∧ decode true [0x1F, 0xE9] = .unknownOpCode [0x1F, 0xE9] ∧
    decode true [0x09, 0x01, 0x13, 0x00] = .reservedOperandBits ∧ decode false [0x52, 0x12] = .unknownOpCode [0x52] ∧
    decode false [0x3D, 0x12, 0x34] = .unknownOpCode [0x3D] := by decide

/-! ### The words of opcode_table.json, and their run as the first instruction after reset -/

theorem test_table_words :
    decodeTableWord 8 0x00 = some .brk ∧ decodeTableWord 16 0x0210 = some (.add_r_r 1 0) ∧
    decodeTableWord 24 0x044140 = some (.add_R_R 0x40 0x41) ∧
    decodeTableWord 32 0x0801B052 = some (.addx_ER_ER 0x052 0x01B) ∧
    decodeTableWord 40 0x1FE8234346 = some (.ldwx_ER_ER 0x346 0x234) ∧
    decodeTableWord 24 0x3D1234 = some (.jp .ule 0x1234) := by decide

/-- The match word of each row but BRK's, run at reset: every row completes there. -/
theorem test_rows_run_from_reset :
    ([(16, 0x0100), (16, 0x0200), (16, 0x0300), (24, 0x040000), (24, 0x050000), (24, 0x060000), (24, 0x070000),
      (32, 0x08000000), (32, 0x09000000), (16, 0x0A00), (16, 0x0B00), (16, 0x0C00), (40, 0x1FE8000000),
      (32, 0x68000000), (32, 0x69000000), (32, 0x78000000), (32, 0x79000000), (16, 0x5200), (16, 0x5300),
      (24, 0x540000), (24, 0x550000), (24, 0x560000), (24, 0x570000), (16, 0x4000), (16, 0x4100),
      (24, 0x0D0000)].all fun r => nextAnd (step (State.reset.withFetchWord r.1 r.2)) fun _ => true) = true := by
  decide

/-- BRK runs too, and by the default BRK_MODE it is the Break (R9, R161). -/
theorem test_brk_runs_from_reset : faultsAs (step (State.reset.withFetchWord 8 0x00)) .brk = true := by decide

/-- The load admits a general-knowledge row only when one is loaded (log 5). -/
theorem test_withFetchWord_admits :
    (State.reset.withFetchWord 16 0x5212).cfg.admitGkRows = true ∧
    (State.reset.withFetchWord 16 0x0210).cfg = State.reset.cfg := by decide

/-! ### One step of each instruction (95_test_vectors.md) -/

/-- S1 -/
theorem test_addx_source_example :
    nextAnd (stepOn 0x0100 (given 0 [(0x634, 0x2E), (0xB12, 0x1B)]) [0x08, 0xB1, 0x26, 0x34]) (fun t =>
      regVal t 0x634 == 0x49 && regVal t 0xB12 == 0x1B && czsvdh t == [false, false, false, false, false, true] &&
      t.pc == 0x0104) = true := by decide
/-- S2 -/
theorem test_addx_escaped :
    nextAnd (stepOn 0x0100 (given 0x20 [(0x024, 0x2E), (0xB12, 0x1B)]) [0x08, 0xB1, 0x2E, 0xE4]) (fun t =>
      regVal t 0x024 == 0x49) = true := by decide
/-- 2.1, 80 + 80; A9: RP as the destination -/
theorem test_addx_im :
    nextAnd (stepOn 0x0100 (given 0 [(0x300, 0x80)]) [0x09, 0x80, 0x03, 0x00]) (fun t =>
      regVal t 0x300 == 0x00 && czsvdh t == [true, true, false, true, false, false]) = true ∧
    nextAnd (stepOn 0x0100 (given 0x20 []) [0x09, 0x10, 0x0F, 0xFD]) (fun t => t.rp == 0x30) = true := by decide
/-- A10, T4, F6 -/
theorem test_addx_refusals :
    refusedAs (stepOn 0x0100 State.reset [0x09, 0x01, 0x0F, 0xFC]) .flagsAsDestination = true ∧
    refusedAs (stepOn 0x0100 State.reset [0x08, 0xE1, 0x02, 0x00]) .escapedPageE = true ∧
    refusedAs (stepOn 0x0100 State.reset [0x09, 0x01, 0x0F, 0x00]) (.unmodelledRegister 0xF00) = true := by decide
/-- A2 -/
theorem test_add_r_r :
    nextAnd (stepOn 0x0100 (given 0x20 [(0x021, 0x40)]) [0x02, 0x11]) (fun t =>
      regVal t 0x021 == 0x80 && czsvdh t == [false, false, true, true, false, false] && t.pc == 0x0102) = true := by
  decide
/-- A3 -/
theorem test_add_r_Ir :
    nextAnd (stepOn 0x0100 (given 0x10 [(0x013, 0x40), (0x040, 0x01), (0x012, 0xFF)]) [0x03, 0x23]) (fun t =>
      regVal t 0x012 == 0x00 && regVal t 0x013 == 0x40 && regVal t 0x040 == 0x01 &&
      czsvdh t == [true, true, false, false, false, true]) = true := by decide
/-- F5 -/
theorem test_add_r_Ir_escape :
    refusedAs (stepOn 0x0106 (given 0x20 [(0x020, 0xE5), (0x021, 0x01)]) [0x03, 0x10]) .indirectEscape = true := by
  decide
/-- A4 -/
theorem test_add_R_R :
    nextAnd (stepOn 0x0100 (given 0x03 [(0x340, 0x7F), (0x341, 0x01)]) [0x04, 0x41, 0x40]) (fun t =>
      regVal t 0x340 == 0x80 && regVal t 0x341 == 0x01 && czsvdh t == [false, false, true, true, false, true] &&
      t.pc == 0x0103) = true := by decide
/-- A6 -/
theorem test_add_R_IR :
    nextAnd (stepOn 0x0100 (given 0 [(0x020, 0x30), (0x030, 0x10), (0x021, 0xF0)]) [0x05, 0x20, 0x21]) (fun t =>
      regVal t 0x021 == 0x00 && regVal t 0x030 == 0x10 && czsvdh t == [true, true, false, false, false, false]) =
      true := by decide
/-- A7 -/
theorem test_add_R_IM :
    nextAnd (stepOn 0x0100 (given 0x20 [(0x025, 0x80)]) [0x06, 0xE5, 0x80]) (fun t =>
      regVal t 0x025 == 0x00 && czsvdh t == [true, true, false, true, false, false]) = true := by decide
/-- A8 -/
theorem test_add_IR_IM :
    nextAnd (stepOn 0x0100 (given 0 [(0x020, 0x31), (0x031, 0x0F)]) [0x07, 0x20, 0x01]) (fun t =>
      regVal t 0x031 == 0x10 && regVal t 0x020 == 0x31 && czsvdh t == [false, false, false, false, false, true]) =
      true := by decide
/-- S3 -/
theorem test_tcmx_source_example :
    nextAnd (stepOn 0x0100 (given 0 [(0xDD4, 0x04), (0x420, 0x80)]) [0x68, 0x42, 0x0D, 0xD4]) (fun t =>
      regVal t 0xDD4 == 0x04 && czsvdh t == [false, false, true, false, false, false]) = true := by decide
/-- S4, with the Op Code of the encoding table (C1) -/
theorem test_tcmx_im_source_example :
    nextAnd (stepOn 0x0100 (given 0 [(0xB52, 0xF2)]) [0x69, 0x02, 0x0B, 0x52]) (fun t =>
      regVal t 0xB52 == 0xF2 && czsvdh t == [false, true, false, false, false, false] && t.pc == 0x0104) = true := by
  decide
/-- S5 -/
theorem test_tmx_source_example :
    nextAnd (stepOn 0x0100 (given 0 [(0x789, 0x45), (0x246, 0x02)]) [0x78, 0x24, 0x67, 0x89]) (fun t =>
      czsvdh t == [false, true, false, false, false, false]) = true := by decide
/-- S6; T2: C, D and H are kept and V is cleared -/
theorem test_tmx_im :
    nextAnd (stepOn 0x0100 (given 0 [(0x013, 0xF1)]) [0x79, 0x02, 0x00, 0x13]) (fun t =>
      regVal t 0x013 == 0xF1 && czsvdh t == [false, true, false, false, false, false]) = true ∧
    nextAnd (stepOn 0x0100 (given 0 [(0x300, 0x01), (0xFFC, 0x9C)]) [0x79, 0x01, 0x03, 0x00]) (fun t =>
      czsvdh t == [true, false, false, false, true, true]) = true := by decide
/-- R42, D14: TMX and TCMX write flags, so Flags as their destination is refused; as their source it is read -/
theorem test_tests_flags_location :
    refusedAs (stepOn 0x0100 launch [0x79, 0x80, 0x0F, 0xFC]) .flagsAsDestination = true ∧
    refusedAs (stepOn 0x0100 launch [0x69, 0x80, 0x0F, 0xFC]) .flagsAsDestination = true ∧
    nextAnd (stepOn 0x0100 (given 0 [(0xFFC, 0x80), (0x300, 0xFF)]) [0x78, 0xFF, 0xC3, 0x00]) (fun t =>
      czsvdh t == [true, false, true, false, false, false]) = true := by decide
/-- R8, D4: Flags without a location -/
theorem test_flags_as_device :
    refusedAs (stepOn 0x0100 flagsAsDevice [0x79, 0x80, 0x0F, 0xFC]) (.unmodelledRegister 0xFFC) = true ∧
    nextAnd (stepOn 0x0100 flagsAsDevice [0x09, 0x00, 0x03, 0x00]) (fun t => t.flags.z) = true := by decide
/-- L1, L2 -/
theorem test_and_r_r :
    nextAnd (stepOn 0x0100 (given 0x20 [(0x021, 0xF0), (0x022, 0x3C)]) [0x52, 0x12]) (fun t =>
      regVal t 0x021 == 0x30 && czsvdh t == [false, false, false, false, false, false]) = true := by decide
theorem test_and_r_Ir :
    nextAnd (stepOn 0x0100 (given 0x10 [(0x013, 0x40), (0x040, 0x0F), (0x012, 0xFF)]) [0x53, 0x23]) (fun t =>
      regVal t 0x012 == 0x0F && regVal t 0x040 == 0x0F) = true := by decide
/-- L3, L4 -/
theorem test_and_R_R :
    nextAnd (stepOn 0x0100 (given 0 [(0x040, 0xAA), (0x041, 0x55)]) [0x54, 0x41, 0x40]) (fun t =>
      regVal t 0x040 == 0x00 && regVal t 0x041 == 0x55 && t.flags.z) = true := by decide
theorem test_and_R_IR :
    nextAnd (stepOn 0x0100 (given 0 [(0x020, 0x30), (0x030, 0x80), (0x021, 0xFF)]) [0x55, 0x20, 0x21]) (fun t =>
      regVal t 0x021 == 0x80 && czsvdh t == [false, false, true, false, false, false]) = true := by decide
/-- L5 (the source's Figure 6), L6 -/
theorem test_and_R_IM :
    nextAnd (stepOn 0x0100 (given 0x20 [(0x02F, 0x70)]) [0x56, 0xEF, 0xDF]) (fun t =>
      regVal t 0x02F == 0x50 && t.pc == 0x0103) = true := by decide
theorem test_and_IR_IM :
    nextAnd (stepOn 0x0100 (given 0 [(0x020, 0x31), (0x031, 0xFF)]) [0x57, 0x20, 0x7F]) (fun t =>
      regVal t 0x031 == 0x7F && regVal t 0x020 == 0x31) = true := by decide
/-- M2: RP through wr(13); M3: Flags through wr(12) -/
theorem test_ld_r_IM :
    nextAnd (stepOn 0x0100 (given 0xFF []) [0xDC, 0x12]) (fun t => t.rp == 0x12 && t.pc == 0x0102) = true ∧
    nextAnd (stepOn 0x0100 (given 0xFF []) [0xCC, 0xA5]) (fun t =>
      t.flags == ⟨true, false, true, false, false, true, false, true⟩) = true := by decide
/-- M5, M8 -/
theorem test_ldwx :
    nextAnd (stepOn 0x0100 (given 0x20 [(0x234, 0x56), (0x235, 0x78)]) [0x1F, 0xE8, 0x23, 0x4E, 0xE2]) (fun t =>
      regVal t 0x022 == 0x56 && regVal t 0x023 == 0x78 && t.pc == 0x0105) = true ∧
    nextAnd (stepOn 0x0100 (given 0 [(0x234, 0x80), (0x235, 0x31)]) [0x1F, 0xE8, 0x23, 0x4F, 0xFC]) (fun t =>
      flagsToByte t.flags == 0x80 && t.rp == 0x31) = true := by decide
/-- M9, M10 -/
theorem test_ldwx_odd :
    refusedAs (stepOn 0x0100 State.reset [0x1F, 0xE8, 0x23, 0x43, 0x45]) .ldwxOddAddress = true ∧
    refusedAs (stepOn 0x0100 (given 0x20 []) [0x1F, 0xE8, 0x23, 0x4E, 0xEF]) .ldwxOddAddress = true := by decide
/-- J2: it falls through and Z is not set; J3: it wraps and jumps -/
theorem test_djnz :
    nextAnd (stepOn 0x0108 (given 0x20 [(0x020, 0x01)]) [0x0A, 0xFC]) (fun t =>
      regVal t 0x020 == 0x00 && t.pc == 0x010A && !t.flags.z) = true ∧
    nextAnd (stepOn 0x0108 (given 0x20 [(0x020, 0x00)]) [0x0A, 0xFC]) (fun t =>
      regVal t 0x020 == 0xFF && t.pc == 0x0106) = true := by decide
/-- J6: the counter is RP itself -/
theorem test_djnz_rp :
    nextAnd (stepOn 0x0108 (given 0xFF []) [0xDA, 0x00]) (fun t => t.rp == 0xFE && t.pc == 0x010A) = true := by
  decide
/-- B4, B5, B14 -/
theorem test_jr :
    nextAnd (stepOn 0x0200 (withFlags false false true false) [0x1B, 0x10]) (fun t => t.pc == 0x0212) = true ∧
    nextAnd (stepOn 0x0200 (withFlags false false true true) [0x1B, 0x10]) (fun t => t.pc == 0x0202) = true ∧
    nextAnd (stepOn 0x0010 State.reset [0x8B, 0x80]) (fun t => t.pc == 0xFF92) = true := by decide
/-- B13: next wraps -/
theorem test_jr_wraps : nextAnd (stepOn 0xFFFE State.reset [0x8B, 0x00]) (fun t => t.pc == 0x0000) = true := by
  decide
/-- The rows of "Which condition codes hold" for C0 Z0 S0 V0 and C1 Z0 S1 V1 -/
theorem test_condition_rows :
    ((List.range 16).filter fun k => condHolds (withFlags false false false false).flags (Cond.ofBits (BitVec.ofNat 4 k))) =
      [0x8, 0x9, 0xA, 0xB, 0xC, 0xD, 0xE, 0xF] ∧
    ((List.range 16).filter fun k => condHolds (withFlags true false true true).flags (Cond.ofBits (BitVec.ofNat 4 k))) =
      [0x3, 0x4, 0x5, 0x7, 0x8, 0x9, 0xA, 0xE] := by decide
/-- K1, K2 -/
theorem test_jp :
    nextAnd (stepOn 0x0100 (withFlags false true false false) [0x3D, 0x12, 0x34]) (fun t => t.pc == 0x1234) = true ∧
    nextAnd (stepOn 0x0100 launch [0x0D, 0x12, 0x34]) (fun t => t.pc == 0x0103) = true := by decide
/-- W1: after SRP #12h, R0 is 210h -/
theorem test_srp :
    nextAnd (stepOn 0x0104 (given 0x20 []) [0x01, 0x12]) (fun t => t.rp == 0x12 && wr t.rp 0 == 0x210 && t.pc == 0x0106) =
      true := by decide
/-- X1, X2 -/
theorem test_brk :
    faultsAs (stepOn 0x0100 (withBrk .stop) [0x00]) .brk = true ∧
    nextAnd (stepOn 0x0100 (withBrk .nop) [0x00]) (fun t => t.pc == 0x0101) = true := by decide
/-- Y1, the step of DA: V is a free value, so nothing is said of it -/
theorem test_da_R :
    nextAnd (stepOn 0x0103 (given 0 [(0x040, 0x3C)]) [0x40, 0x40]) (fun t =>
      regVal t 0x040 == 0x42 && !t.flags.c && !t.flags.z && !t.flags.s && t.pc == 0x0105) = true := by decide
/-- Y2 through a pointer; R122: after a subtraction that borrowed from bit 4 (D1 H1), 2Eh becomes 28h -/
theorem test_da_IR :
    nextAnd (stepOn 0x0103 (given 0 [(0x040, 0x50), (0x050, 0x9A)]) [0x41, 0x40]) (fun t =>
      regVal t 0x050 == 0x00 && t.flags.c && t.flags.z && t.pc == 0x0105) = true ∧
    nextAnd (stepOn 0x0103 (given 0 [(0x040, 0x50), (0x050, 0x2E), (0xFFC, 0x0C)]) [0x41, 0x40]) (fun t =>
      regVal t 0x050 == 0x28 && t.flags.d && t.flags.h) = true := by decide
/-- R222: F1, F2, B15, B1 and a load that defines what it writes, in launches that leave the rest undefined -/
theorem test_undefined_values :
    faultsAs (stepOn 0x0100 bare [0x0C, 0x05]) (.unwrittenRegister 0xFFD) = true ∧
    faultsAs (stepOn 0x0102 (bareWith [(0xFFD, 0x20)]) [0x02, 0x10]) (.unwrittenRegister 0x021) = true ∧
    faultsAs (stepOn 0x0200 bare [0x3B, 0x00]) (.unwrittenRegister 0xFFC) = true ∧
    nextAnd (stepOn 0x0200 bare [0x0B, 0x7F]) (fun t => t.pc == 0x0202) = true ∧
    nextAnd (stepOn 0x0100 (bareWith [(0xFFD, 0x20)]) [0x0C, 0x05]) (fun t =>
      readable t 0x020 && !readable t 0x021) = true := by decide
/-- R222: AND defines Z, S and V and leaves the other flags undefined; ADD defines the six -/
theorem test_flags_defined :
    nextAnd (stepOn 0x0100 (bareWith [(0xFFD, 0x20), (0x021, 0xF0), (0x022, 0x3C)]) [0x52, 0x12]) (fun t =>
      t.undef.flags == ⟨true, false, false, false, true, true, true, true⟩) = true ∧
    nextAnd (stepOn 0x0100 (bareWith [(0xFFD, 0x20), (0x021, 0xF0), (0x022, 0x3C)]) [0x02, 0x12]) (fun t =>
      t.undef.flags == ⟨false, false, false, false, false, false, true, true⟩) = true := by decide
/-- Fetching: F3, F7, an unprogrammed byte, the end of the run -/
theorem test_fetch_stops :
    refusedAs (stepOn 0x0100 State.reset [0x0F]) (.unknownOpCode [0x0F]) = true ∧
    faultsAs (stepOn 0xFFFF State.reset [0x01]) .fetchOutsideProgramMemory = true ∧
    faultsAs (stepOn 0x0100 State.reset [0x01]) (.unprogrammedByte 0x0101) = true ∧
    faultsAs (stepOn 0x0100 (withEnd 0x0100) [0x00]) .endOfRun = true := by decide

/-! ### Witnesses: for each obligation with hypotheses, operands and states that meet them, clause by clause, at the
boundaries of the clauses -/

/-- RP 20h, so R0 is 020h, which points to 030h. -/
def st : State := given 0x20 [(0x020, 0x30), (0x030, 0x81)]

/-- R0 points to Enh. -/
def stEscape : State := given 0x20 [(0x020, 0xE0)]

/-- The state with bytes at pc. -/
def placed (s : State) (bs : List Byte) : State := s.setProg (placeBytes [] s.pc.toNat bs)

/-- No ram but 000h to 0FEh, and a program memory of 102h bytes. -/
def small : State :=
  State.reset.setCfg { Config.default with regMap := [⟨0x000, 0x0FE, .ram⟩], progSize := 0x102 }

theorem test_witness_DecodeOfEncode : Instr.fromGk .brk = false ∧ Instr.fromGk (.jp .f 0) = true := by decide
theorem test_witness_DecodedBytesAreTheEncoding :
    decode false [0x01, 0x20] = .instr (.srp 0x20) [] ∧
    decode true [0x40, 0x41, 0x00] = .instr (.da_R 0x41) [0x00] ∧ Instr.fromGk (.da_R 0x41) = true := by decide
theorem test_witness_LengthTableAgreesWithFormats :
    (Instr.fromGk .brk = true → false = true) ∧ instrLength false [0x40, 0, 0, 0, 0] = none ∧
    decode false [0x40, 0, 0, 0, 0] = .unknownOpCode [0x40] := by decide
theorem test_witness_ImmediateAddressFormat :
    (0x0F : Byte).extractLsb' 4 4 = 0 ∧ (0x10 : Byte).extractLsb' 4 4 ≠ 0 := by decide

theorem test_witness_StepRunsDecodedInstruction :
    (placed st [0x01, 0x12]).cfg.endPc ≠ some (placed st [0x01, 0x12]).pc ∧
    memRead (placed st [0x01, 0x12]) (placed st [0x01, 0x12]).pc [(0x01 : Byte), 0x12].length = .next [0x01, 0x12] ∧
    decode (placed st [0x01, 0x12]).cfg.admitGkRows [0x01, 0x12] = .instr (.srp 0x12) [] :=
  ⟨by decide, rfl, by decide⟩
theorem test_witness_UnknownOpCodesRefused_admitted :
    st.cfg.endPc ≠ some st.pc ∧ memRead (placed st [0x0F]) 0 1 = .next [0x0F] ∧ (0x0F : Byte).toNat % 16 ∉ [0xA, 0xB, 0xC] ∧
    (0x0F : Byte).toNat ∉ [0, 1, 2, 3, 4, 5, 6, 7, 8, 9, 0x1F, 0x68, 0x69, 0x78, 0x79] ∧
    (0x0F : Byte).toNat % 16 ≠ 0xD ∧ (0x0F : Byte).toNat ∉ [0x40, 0x41, 0x52, 0x53, 0x54, 0x55, 0x56, 0x57] :=
  ⟨by decide, rfl, by decide, by decide, by decide, by decide⟩
theorem test_witness_UnknownOpCodesRefused_source_rows :
    State.reset.cfg.endPc ≠ some State.reset.pc ∧ memRead (placed State.reset [0x57]) 0 1 = .next [0x57] ∧ (0x57 : Byte).toNat % 16 ∉ [0xA, 0xB, 0xC] ∧
    (0x57 : Byte).toNat ∉ [0, 1, 2, 3, 4, 5, 6, 7, 8, 9, 0x1F, 0x68, 0x69, 0x78, 0x79] ∧
    (placed State.reset [0x57]).cfg.admitGkRows ≠ true :=
  ⟨by decide, rfl, by decide, by decide, by decide⟩
theorem test_witness_UnknownOpCodesRefused_prefix :
    st.cfg.endPc ≠ some st.pc ∧ memRead (placed st [0x1F, 0xE9]) 0 2 = .next [0x1F, 0xE9] ∧ (0xE9 : Byte) ≠ 0xE8 :=
  ⟨by decide, rfl, by decide⟩
theorem test_witness_ReservedOperandBitsRefused :
    st.cfg.endPc ≠ some st.pc ∧ memRead (placed st [0x79, 0x01, 0x13, 0x00]) 0 4 = .next [0x79, 0x01, 0x13, 0x00] ∧
    (0x13 : Byte).extractLsb' 4 4 ≠ 0 := ⟨by decide, rfl, by decide⟩
theorem test_witness_ProgramReadWithinBounds_outside :
    (∃ k, k < 2 ∧ (st.cfg.progSize ≤ (0xFFFF : Addr16).toNat + k ∨ 0xFFFF < (0xFFFF : Addr16).toNat + k)) ∧
    (∃ k, k < 1 ∧ (small.cfg.progSize ≤ (0x102 : Addr16).toNat + k ∨ 0xFFFF < (0x102 : Addr16).toNat + k)) :=
  ⟨⟨1, by decide⟩, ⟨0, by decide⟩⟩
theorem test_witness_ProgramReadWithinBounds_inside :
    ∀ k, k < 2 →
      (0x100 : Addr16).toNat + k < (placed (small.setPc 0x100) [7, 9]).cfg.progSize ∧
      (0x100 : Addr16).toNat + k ≤ 0xFFFF ∧
      cellFind (placed (small.setPc 0x100) [7, 9]).prog ((0x100 : Addr16).toNat + k) = ([7, 9] : List Byte)[k]? := by
  decide
theorem test_witness_FetchPastTheEndFaults :
    small.cfg.endPc ≠ some (small.setPc 0x102).pc ∧ small.cfg.progSize ≤ (small.setPc 0x102).pc.toNat ∧
    fetchOpCode (placed (st.setPc 0xFFFF) [0x01]) = .next [0x01] ∧
    instrLength (placed (st.setPc 0xFFFF) [0x01]).cfg.admitGkRows [0x01] = some 2 ∧
    0x10000 < (placed (st.setPc 0xFFFF) [0x01]).pc.toNat + 2 := ⟨by decide, by decide, rfl, by decide, by decide⟩
theorem test_witness_FetchPastTheEndFaults_prefix :
    st.cfg.endPc ≠ some (0xFFFF : Addr16) ∧
    memRead (placed (st.setPc 0xFFFF) [0x1F]) 0xFFFF 1 = .next [0x1F] ∧
    0x10000 < (placed (st.setPc 0xFFFF) [0x1F]).pc.toNat + 2 := ⟨by decide, rfl, by decide⟩
theorem test_witness_OnlyBrkFaults :
    exec .brk (withBrk .stop) = .fault .brk ∧ AllDefined (withBrk .stop) ∧
    exec (.ld_r_IM 0 5) bare = .fault (.unwrittenRegister 0xFFD) := ⟨rfl, ⟨by decide, by decide⟩, rfl⟩
theorem test_witness_RunEndings :
    (withEnd 0x0000).cfg.endPc = some (withEnd 0x0000).pc ∧
    step (placed (withBrk .stop) [0x00]) = .fault .brk ∧ some (0x0000 : Addr16) = some (placed (withBrk .stop) [0x00]).pc ∧
    none ≠ some (placed (withBrk .stop) [0x00]).pc ∧ step State.reset = .fault (.unprogrammedByte 0) ∧
    step (placed st [0x0F]) = .refused (.unknownOpCode [0x0F]) ∧ (∃ t, step (placed st [0x01, 0x12]) = .next t) ∧
    runEnd none 1 (withEnd 0x0000) = .final (withEnd 0x0000) :=
  ⟨by decide, rfl, by decide, by decide, rfl, rfl, ⟨_, rfl⟩, rfl⟩
theorem test_witness_BrkFollowsItsMode :
    (withBrk .stop).cfg.brkMode = .stop ∧ ((withBrk .nop).setPc 0x0100).cfg.brkMode = .nop ∧
    ((withBrk .nop).setPc 0x0100).pc = 0x0100 := by decide

theorem test_witness_rp_known : st.undef.rp = false ∧ stEscape.undef.rp = false := by decide
theorem test_witness_EscapedOperandAddress :
    (0xEE0 : Addr12).extractLsb' 4 8 = 0xEE ∧ (0xEEF : Addr12).extractLsb' 4 8 = 0xEE ∧
    ((0xEDF : Addr12).extractLsb' 4 8 ≠ 0xEE ∧ (0xEDF : Addr12).extractLsb' 8 4 = 0xE) ∧
    ((0xEF0 : Addr12).extractLsb' 4 8 ≠ 0xEE ∧ (0xEF0 : Addr12).extractLsb' 8 4 = 0xE) ∧
    (0xDFF : Addr12).extractLsb' 8 4 ≠ 0xE ∧ (0xF00 : Addr12).extractLsb' 8 4 ≠ 0xE := by decide
theorem test_witness_EightBitOperandAddress :
    (0xE0 : Byte).extractLsb' 4 4 = 0xE ∧ (0xEF : Byte).extractLsb' 4 4 = 0xE ∧
    (0xDF : Byte).extractLsb' 4 4 ≠ 0xE ∧ (0xF0 : Byte).extractLsb' 4 4 ≠ 0xE := by decide
theorem test_witness_IndirectOperandAddress :
    regRead st (wr st.rp 0) = .next 0x30 ∧ regRead st (eaR st.rp 0x20) = .next 0x30 ∧
    regRead stEscape (wr stEscape.rp 0) = .next 0xE0 ∧ regRead stEscape (eaR stEscape.rp 0xE0) = .next 0xE0 :=
  ⟨rfl, rfl, rfl, rfl⟩

theorem test_witness_RegisterWriteThenRead :
    modelled st.cfg 0x000 = true ∧ modelled st.cfg 0xEFF = true ∧ modelled st.cfg 0xFFC = true ∧
    modelled st.cfg 0xFFD = true ∧ modelled st.cfg 0xFFF = true := by decide
theorem test_witness_RegisterWriteLeavesTheRest :
    (∃ t, regWrite st 0x000 0x07 = .next t) ∧ (∃ t, regWrite st 0xFFD 0x07 = .next t) ∧
    (0x000 : Addr12) ≠ st.cfg.rpAddr ∧ (0xFFD : Addr12) ≠ st.cfg.flagsAddr := ⟨⟨_, rfl⟩, ⟨_, rfl⟩, by decide, by decide⟩
theorem test_witness_UnmodelledLocationsRefused_classes :
    regClass st.cfg 0xF00 = .device ∧ regClass st.cfg 0xFFB = .device ∧ regClass small.cfg 0x0FF = .absent := by decide
theorem test_witness_UnmodelledLocationsRefused_completes :
    (∃ t, exec (.add_r_Ir 1 0) st = .next t) ∧ (0x021 : Addr12) ∈ writes st (.add_r_Ir 1 0) ∧
    (0x020 : Addr12) ∈ reads st (.add_r_Ir 1 0) ∧ (0x030 : Addr12) ∈ reads st (.add_r_Ir 1 0) ∧
    (∃ t, exec (.ldwx_ER_ER 0x300 0xEE0) st = .next t) ∧ (0x021 : Addr12) ∈ reads st (.ldwx_ER_ER 0x300 0xEE0) ∧
    (∃ t, exec (.tmx_ER_IM 0x030 1) st = .next t) ∧ (0x030 : Addr12) ∈ reads st (.tmx_ER_IM 0x030 1) :=
  ⟨⟨_, rfl⟩, by decide, by decide, by decide, ⟨_, rfl⟩, by decide, ⟨_, rfl⟩, by decide⟩
theorem test_witness_UndefinedValuesFaultWhenRead :
    (regClass bare.cfg 0x000 = .ram ∧ regClass bare.cfg 0xFFE = .sph ∧ regClass bare.cfg 0xFFF = .spl ∧
      cellFind bare.regs 0xFFF = none ∧ bare.cfg.blank = none) ∧
    (bare.undef.rp = true ∧ (0xDFF : Addr12).extractLsb' 8 4 ≠ 0xE ∧ regClass bare.cfg bare.cfg.rpAddr = .rp) ∧
    (regClass bare.cfg bare.cfg.flagsAddr = .flags ∧ bare.undef.flags ≠ Flags.zero) ∧
    (bare.undef.flags.c = true ∧ Cond.nc ∈ ([.ule, .c, .ugt, .nc] : List Cond)) := by decide
theorem test_witness_UndefinedValuesFaultWhenRead_overwritten :
    (∃ t, regWrite bare 0xFFD 0x20 = .next t) ∧ (∃ t, exec (.addx_ER_IM 0x300 1) (bareWith [(0x300, 1)]) = .next t) ∧
    addForm (.addx_ER_IM 0x300 1) ≠ none ∧ (∃ t, exec (.tmx_ER_IM 0x300 1) (bareWith [(0x300, 1)]) = .next t) ∧
    testForm (.tmx_ER_IM 0x300 1) ≠ none ∧ (∃ t, exec (.srp 0x20) bare = .next t) :=
  ⟨⟨_, rfl⟩, ⟨_, rfl⟩, by decide, ⟨_, rfl⟩, by decide, ⟨_, rfl⟩⟩

theorem test_witness_AddWorkingRegisterForms :
    st.undef.rp = false ∧ resultPlace st (wr st.rp 0) = true ∧ readable st (wr st.rp 0) = true ∧
    eaInd st.rp (regVal st (wr st.rp 0)) = .next 0x030 ∧ readable st 0x030 = true :=
  ⟨rfl, by decide, by decide, rfl, by decide⟩
theorem test_witness_AddRegisterAddressForms :
    st.undef.rp = false ∧ resultPlace st (eaR st.rp 0x40) = true ∧ readable st (eaR st.rp 0x20) = true ∧
    eaInd st.rp (regVal st (eaR st.rp 0x20)) = .next 0x030 ∧ readable st 0x030 = true :=
  ⟨rfl, by decide, by decide, rfl, by decide⟩
theorem test_witness_AddImmediateForms :
    st.undef.rp = false ∧ resultPlace st (eaR st.rp 0xE0) = true ∧ readable st (eaR st.rp 0x20) = true ∧
    eaInd st.rp (regVal st (eaR st.rp 0x20)) = .next 0x030 ∧ resultPlace st 0x030 = true :=
  ⟨rfl, by decide, by decide, rfl, by decide⟩
theorem test_witness_AddxForms :
    resolve st (.ER 0xEE0) = .next 0x020 ∧ resultPlace st 0x020 = true ∧ resolve st (.ER 0xFFC) = .next 0xFFC ∧
    readable st 0xFFC = true := ⟨rfl, by decide, rfl, by decide⟩
theorem test_witness_AndRegisterForms :
    st.undef.rp = false ∧ resultPlace st (wr st.rp 15) = true ∧ readable st (wr st.rp 0) = true ∧
    eaInd st.rp (regVal st (wr st.rp 0)) = .next 0x030 ∧ readable st 0x030 = true ∧
    resultPlace st (eaR st.rp 0x40) = true ∧ readable st (eaR st.rp 0x20) = true :=
  ⟨rfl, by decide, by decide, rfl, by decide, by decide, by decide⟩
theorem test_witness_AndImmediateForms :
    st.undef.rp = false ∧ resultPlace st (eaR st.rp 0x20) = true ∧ readable st (eaR st.rp 0x20) = true ∧
    eaInd st.rp (regVal st (eaR st.rp 0x20)) = .next 0x030 ∧ resultPlace st 0x030 = true :=
  ⟨rfl, by decide, by decide, rfl, by decide⟩
theorem test_witness_TcmxTestsSelectedBitsForOne :
    resolve st (.ER 0xFFD) = .next 0xFFD ∧ resultPlace st 0xFFD = true ∧ resolve st (.ER 0xFFC) = .next 0xFFC ∧
    readable st 0xFFC = true := ⟨rfl, by decide, rfl, by decide⟩
theorem test_witness_TmxTestsSelectedBitsForZero :
    resolve st (.ER 0x000) = .next 0x000 ∧ resultPlace st 0x000 = true ∧ resolve st (.ER 0xEEF) = .next 0x02F ∧
    readable st 0x02F = true := ⟨rfl, by decide, rfl, by decide⟩
theorem test_witness_LdLoadsTheImmediate :
    (st.undef.rp = false ∧ modelled st.cfg (wr st.rp 0) = true ∧ wr st.rp 0 ≠ st.cfg.flagsAddr) ∧
    (modelled st.cfg (wr 0xFF 12) = true ∧ regClass st.cfg (wr 0xFF 12) = .flags) ∧
    (modelled st.cfg (wr 0xFF 13) = true ∧ regClass st.cfg (wr 0xFF 13) = .rp) := by decide
theorem test_witness_LdwxCopiesTheWord :
    resolve st (.ER 0xEE2) = .next 0x022 ∧ resolve st (.ER 0xFFE) = .next 0xFFE ∧ (0x022 : Addr12).getLsbD 0 = false ∧
    (0xFFE : Addr12).getLsbD 0 = false ∧ modelled st.cfg 0x022 = true ∧ modelled st.cfg (0x022 + 1) = true ∧
    readable st 0xFFE = true ∧ readable st (0xFFE + 1) = true ∧ (0x022 : Addr12) ≠ st.cfg.flagsAddr ∧
    (0x022 : Addr12) + 1 ≠ st.cfg.flagsAddr :=
  ⟨rfl, rfl, by decide, by decide, by decide, by decide, by decide, by decide, by decide, by decide⟩
theorem test_witness_DjnzCountsDown :
    st.undef.rp = false ∧ readable st (wr st.rp 0) = true ∧ wr st.rp 0 ≠ st.cfg.flagsAddr ∧
    (given 0xFF []).undef.rp = false ∧ readable (given 0xFF []) (wr 0xFF 13) = true := by decide
theorem test_witness_JrJumpsByDisplacement :
    flagsMeet st.undef.flags (condReads .gt) = false ∧ condHolds st.flags .gt = true ∧
    flagsMeet bare.undef.flags (condReads .f) = false ∧ condHolds bare.flags .f = false := by decide
theorem test_witness_JpJumpsToAddress :
    flagsMeet st.undef.flags (condReads .nc) = false ∧ condHolds st.flags .nc = true ∧
    flagsMeet st.undef.flags (condReads .c) = false ∧ condHolds st.flags .c = false ∧
    (withFlags false true false false).undef.flags.c = false ∧ (withFlags false true false false).undef.flags.z = false ∧
    (withFlags false true false false).flags.c = false ∧ (withFlags false true false false).flags.z = true := by decide
theorem test_witness_SrpSwitchesTheWindow : (0xFFC : Addr12) ≠ st.cfg.rpAddr := by decide
theorem test_witness_DaAdjustsByItsRow :
    daForm (.da_IR 0x20) = some (.IR 0x20) ∧ resolve st (.IR 0x20) = .next 0x030 ∧ resultPlace st 0x030 = true ∧
    (st.undef.flags.d = false ∧ st.undef.flags.c = false ∧ st.undef.flags.h = false) ∧
    (st.flags.d = false ∧ st.flags.c = false ∧ st.flags.h = false ∧ 0 ≤ (regVal st 0x030).toNat / 16 ∧
      (regVal st 0x030).toNat / 16 ≤ 9 ∧ 0 ≤ (regVal st 0x030).toNat % 16 ∧ (regVal st 0x030).toNat % 16 ≤ 9) :=
  ⟨rfl, rfl, by decide, by decide, by decide⟩
theorem test_witness_DecimalAdditionIsCorrect :
    st.undef.rp = false ∧ resultPlace st (eaR st.rp 0x30) = true ∧ eaR st.rp 0x30 ≠ st.cfg.rpAddr ∧
    isBcd (regVal st (eaR st.rp 0x30)) = true ∧ isBcd 0x99 = true := by decide
/-- 41 - 19 = 28h in binary (D1 C0 H1), which DA makes 22. -/
theorem test_witness_DecimalSubtractionIsCorrect :
    let s := given 0x20 [(0x030, 0x28), (0xFFC, 0x0C)]
    daForm (.da_R 0x30) = some (.R 0x30) ∧ resolve s (.R 0x30) = .next 0x030 ∧ resultPlace s 0x030 = true ∧
    (s.undef.flags.d = false ∧ s.undef.flags.c = false ∧ s.undef.flags.h = false) ∧
    (isBcd 0x41 = true ∧ isBcd 0x19 = true ∧ regVal s 0x030 = 0x41 - 0x19 ∧ s.flags.d = true ∧
      (s.flags.c = true ↔ (0x41 : Byte).toNat < (0x19 : Byte).toNat) ∧
      (s.flags.h = true ↔ (0x41 : Byte).toNat % 16 < (0x19 : Byte).toNat % 16)) ∧
    nextAnd (exec (.da_R 0x30) s) (fun t => regVal t 0x030 == 0x22) = true :=
  ⟨rfl, rfl, by decide, by decide, by decide, by decide⟩

theorem test_witness_OperandFormsStopInOrder_resolution :
    operandForm (.addx_ER_ER 0xE00 0x000) = some (.ER 0xE00, .loc (.ER 0x000)) ∧
    resolve st (.ER 0xE00) = .refused .escapedPageE ∧
    resolve bare (.ER 0xEE0) = .fault (.unwrittenRegister 0xFFD) ∧
    operandForm (.and_r_Ir 1 0) = some (.r 1, .loc (.Ir 0)) ∧ resolve stEscape (.r 1) = .next 0x021 ∧
    resolve stEscape (.Ir 0) = .refused .indirectEscape ∧ resolve (bareWith [(0xFFD, 0x20)]) (.r 1) = .next 0x021 ∧
    resolve (bareWith [(0xFFD, 0x20)]) (.Ir 0) = .fault (.unwrittenRegister 0x020) :=
  ⟨rfl, rfl, rfl, rfl, rfl, rfl, rfl, rfl⟩
theorem test_witness_OperandFormsStopInOrder_places :
    operandForm (.tcmx_ER_ER 0xF00 0x000) = some (.ER 0xF00, .loc (.ER 0x000)) ∧
    resolve st (.ER 0xF00) = .next 0xF00 ∧ resolve st (.ER 0x000) = .next 0x000 ∧ modelled st.cfg 0xF00 = false ∧
    modelled st.cfg 0x000 = true ∧ resolve st (.ER 0xFFC) = .next 0xFFC ∧ regClass st.cfg 0xFFC = .flags :=
  ⟨rfl, rfl, rfl, by decide, by decide, rfl, by decide⟩
theorem test_witness_OperandFormsStopInOrder_values :
    operandForm (.tmx_ER_ER 0x300 0x301) = some (.ER 0x300, .loc (.ER 0x301)) ∧
    resolve bare (.ER 0x300) = .next 0x300 ∧ resolve bare (.ER 0x301) = .next 0x301 ∧
    (modelled bare.cfg 0x300 = true ∧ modelled bare.cfg 0x301 = true ∧ regClass bare.cfg 0x300 ≠ .flags ∧
      unwritten bare 0x300 = true) ∧
    (resultPlace (bareWith [(0x300, 1)]) 0x300 = true ∧ modelled (bareWith [(0x300, 1)]).cfg 0x301 = true ∧
      unwritten (bareWith [(0x300, 1)]) 0x301 = true) := ⟨rfl, rfl, rfl, by decide, by decide⟩
theorem test_witness_OperandFormsStopInOrder_immediate :
    operandForm (.tmx_ER_IM 0xFFC 0x01) = some (.ER 0xFFC, .im 0x01) ∧ resolve st (.ER 0xFFC) = .next 0xFFC ∧
    regClass st.cfg 0xFFC = .flags ∧ operandForm (.addx_ER_IM 0xFFB 0x01) = some (.ER 0xFFB, .im 0x01) ∧
    resolve st (.ER 0xFFB) = .next 0xFFB ∧ modelled st.cfg 0xFFB = false ∧
    operandForm (.addx_ER_IM 0xEFF 0x01) = some (.ER 0xEFF, .im 0x01) :=
  ⟨rfl, rfl, by decide, rfl, rfl, by decide, rfl⟩
theorem test_witness_OperandFormsStopInOrder_immediate_value :
    operandForm (.addx_ER_IM 0x000 0x01) = some (.ER 0x000, .im 0x01) ∧ resolve bare (.ER 0x000) = .next 0x000 ∧
    modelled bare.cfg 0x000 = true ∧ regClass bare.cfg 0x000 ≠ .flags ∧ unwritten bare 0x000 = true :=
  ⟨rfl, rfl, by decide, by decide, by decide⟩
theorem test_witness_DaRefusals_resolution :
    daForm (.da_IR 0xE0) = some (.IR 0xE0) ∧ resolve stEscape (.IR 0xE0) = .refused .indirectEscape ∧
    resolve bare (.IR 0xE0) = .fault (.unwrittenRegister 0xFFD) ∧ stEscape.undef.rp = false ∧
    readable stEscape (eaR stEscape.rp 0xE0) = true ∧
    (regVal stEscape (eaR stEscape.rp 0xE0)).extractLsb' 4 4 = 0xE ∧ (given 0x0F []).undef.rp = false ∧
    modelled (given 0x0F []).cfg (eaR (given 0x0F []).rp 0x00) = false :=
  ⟨rfl, rfl, rfl, rfl, by decide, by decide, rfl, by decide⟩
theorem test_witness_DaRefusals_places :
    (resolve (given 0x0F []) (.R 0x00) = .next 0xF00 ∧ modelled (given 0x0F []).cfg 0xF00 = false) ∧
    (resolve (given 0x0F []) (.R 0xFC) = .next 0xFFC ∧ regClass (given 0x0F []).cfg 0xFFC = .flags) ∧
    (resolve (bareWith [(0xFFD, 0)]) (.R 0x40) = .next 0x040 ∧ modelled bare.cfg 0x040 = true ∧
      regClass bare.cfg 0x040 ≠ .flags ∧ unwritten (bareWith [(0xFFD, 0)]) 0x040 = true) ∧
    (resolve (bareWith [(0xFFD, 0), (0x040, 0)]) (.R 0x40) = .next 0x040 ∧
      resultPlace (bareWith [(0xFFD, 0), (0x040, 0)]) 0x040 = true ∧
      (bareWith [(0xFFD, 0), (0x040, 0)]).undef.flags.h = true) :=
  ⟨⟨rfl, by decide⟩, ⟨rfl, by decide⟩, ⟨rfl, by decide, by decide, by decide⟩, ⟨rfl, by decide, by decide⟩⟩
theorem test_witness_DaRefusals_input :
    let s := given 0x20 [(0x020, 0x30), (0x030, 0x04), (0xFFC, 0x04)]
    daForm (.da_IR 0x20) = some (.IR 0x20) ∧ resolve s (.IR 0x20) = .next 0x030 ∧ resultPlace s 0x030 = true ∧
    (s.undef.flags.d = false ∧ s.undef.flags.c = false ∧ s.undef.flags.h = false) ∧
    ∀ row ∈ daTable, daRowMatches s.flags (regVal s 0x030) row = false :=
  ⟨rfl, rfl, by decide, by decide, by decide⟩
theorem test_witness_LoadRefusals_resolution :
    resolve st (.ER 0xE00) = .refused .escapedPageE ∧ resolve bare (.ER 0xEE0) = .fault (.unwrittenRegister 0xFFD) ∧
    resolve bare (.ER 0x234) = .next 0x234 := ⟨rfl, rfl, rfl⟩
theorem test_witness_LoadRefusals_places :
    (resolve small (.ER 0x0FE) = .next 0x0FE ∧ resolve small (.ER 0x000) = .next 0x000 ∧
      resolve small (.ER 0x100) = .next 0x100 ∧ resolve small (.ER 0x001) = .next 0x001) ∧
    ((0x001 : Addr12).getLsbD 0 = true ∧ (0x0FE : Addr12).getLsbD 0 = false ∧ (0x100 : Addr12).getLsbD 0 = false ∧
      (0x000 : Addr12).getLsbD 0 = false) ∧
    (modelled small.cfg 0x100 = false ∧ modelled small.cfg 0x0FE = true ∧ modelled small.cfg (0x0FE + 1) = false ∧
      modelled small.cfg 0x000 = true ∧ modelled small.cfg (0x000 + 1) = true) :=
  ⟨⟨rfl, rfl, rfl, rfl⟩, by decide, by decide⟩
theorem test_witness_LoadRefusals_values :
    (modelled bare.cfg 0x300 = true ∧ modelled bare.cfg (0x300 + 1) = true ∧ modelled bare.cfg 0x200 = true ∧
      modelled bare.cfg (0x200 + 1) = true ∧ unwritten bare 0x200 = true) ∧
    (unwritten (bareWith [(0x200, 1)]) 0x200 = false ∧ unwritten (bareWith [(0x200, 1)]) (0x200 + 1) = true) := by decide
theorem test_witness_LoadRefusals_registers :
    bare.undef.rp = true ∧ ((given 0x0F []).undef.rp = false ∧ modelled (given 0x0F []).cfg (wr (given 0x0F []).rp 0) = false) ∧
    ((bareWith [(0xFFD, 0)]).undef.rp = false ∧ modelled (bareWith [(0xFFD, 0)]).cfg (wr 0 0) = true ∧
      unwritten (bareWith [(0xFFD, 0)]) (wr 0 0) = true) := by decide
theorem test_witness_IllFormedRefusedEverywhere :
    st.undef.rp = false ∧ (Instr.ldwx_ER_ER 0x345 0x234).wellFormed = false ∧
    exec (.ldwx_ER_ER 0x345 0x234) st = .refused .ldwxOddAddress ∧
    exec (.addx_ER_IM 0xE00 0x00) st = .refused .escapedPageE := ⟨rfl, by decide, rfl, rfl⟩

/-- The whole-machine rules about a next state: RegisterFrame, FlagTableHolds, ProgramAndParametersFixed,
PcMovesPastTheInstruction. -/
theorem test_witness_exec_completes :
    (∃ t, exec (.add_r_r 0 1) st = .next t) ∧ (0x021 : Addr12) ∉ writes st (.add_r_r 0 1) ∧
    st.cfg.flagsAddr ∉ writes st (.add_r_r 0 1) ∧ (∃ t, exec (.jr .t 0x80) st = .next t) :=
  ⟨⟨_, rfl⟩, by decide, by decide, ⟨_, rfl⟩⟩
theorem test_witness_RegisterFrame_kept_flags :
    (∃ t, exec (.ld_r_IM 0 1) st = .next t) ∧ (0xFFC : Addr12) ∉ writes st (.ld_r_IM 0 1) ∧
    flagRow (.ld_r_IM 0 1) = ⟨.kept, .kept, .kept, .kept, .kept, .kept⟩ := ⟨⟨_, rfl⟩, by decide, rfl⟩
theorem test_witness_ProgramMemoryIsNotData :
    (∃ t, exec (.ld_r_IM 0 1) st = .next t) ∧ exec .brk (withBrk .stop) = .fault .brk ∧
    exec (.addx_ER_IM 0xE00 0x00) st = .refused .escapedPageE := ⟨⟨_, rfl⟩, rfl, rfl⟩
theorem test_witness_RpChangesOnlyByWrite :
    (∃ t, exec (.srp 0x12) st = .next t ∧ t.rp = 0x12) ∧
    (∃ t, exec (.addx_ER_IM 0xFFD 0x01) st = .next t ∧ t.rp = 0x21) := ⟨⟨_, rfl, rfl⟩, ⟨_, rfl, rfl⟩⟩
theorem test_witness_DAndUserFlagsOnlyByFlagsWrite :
    ∃ t, exec (.ld_r_IM 12 0x08) (given 0xFF []) = .next t ∧ (given 0xFF []).flags.d = false ∧ t.flags.d = true :=
  ⟨_, rfl, rfl, rfl⟩
theorem test_witness_StepKeepsInvariant :
    Inv (placed st [0x01, 0x12]) ∧ AllDefined (placed st [0x01, 0x12]) ∧
    ∃ t, step (placed st [0x01, 0x12]) = .next t := ⟨⟨by decide, by decide⟩, ⟨by decide, by decide⟩, ⟨_, rfl⟩⟩
theorem test_witness_ResetValues : (0x000 : Addr12).toNat < 0xF00 ∧ (0xEFF : Addr12).toNat < 0xF00 := by decide
theorem test_witness_CycleCounts :
    cyclesOf .brk = some ⟨1, .always 2⟩ ∧ regVal (given 0 [(0x000, 0x01)]) (wr 0 0) = 1 ∧
    regVal (given 0 []) (wr 0 0) ≠ 1 := by decide

end Sys2Proof.Tests
end

section
/-! The fetch of R16 reads the Op Code bytes first, then as many bytes as the length table asks for. Bytes that
decode to exactly an instruction are as many as the table says, so the fetch reads them all and decodes them. -/

namespace Sys2Proof

theorem operandErEr_eq_instr {t r : List Byte} {mk : Addr12 → Addr12 → Instr} {i : Instr} :
    operandErEr t mk = .instr i r ↔
      ∃ o1 o2 o3, t = o1 :: o2 :: o3 :: r ∧ i = mk (loNibble o2 ++ o3) (o1 ++ hiNibble o2) := by
  unfold operandErEr
  split
  · grind
  · grind

theorem operandErIm_eq_instr {t r : List Byte} {mk : Addr12 → Byte → Instr} {i : Instr} :
    operandErIm t mk = .instr i r ↔
      ∃ o1 o2 o3, t = o1 :: o2 :: o3 :: r ∧ hiNibble o2 = 0 ∧ i = mk (loNibble o2 ++ o3) o1 := by
  unfold operandErIm
  split
  · split
    · grind
    · grind
  · grind

/-- The length table agrees with the decoder: it gives the length of the instruction decoded, and the decoder has
taken that many bytes. The cases are the arms of the Op Code map; in each the operand parser says how many bytes it
took, and the arm's byte 0 selects the table's row. -/
theorem instrLength_of_decode {g : Bool} {bs rest : List Byte} {i : Instr} (h : decode g bs = .instr i rest) :
    instrLength g bs = some i.length ∧ bs.length = i.length + rest.length := by
  revert h
  fun_cases decode g bs
  all_goals
    simp only [operand1_eq_instr, operand2_eq_instr, operandErEr_eq_instr, operandErIm_eq_instr,
      ifAdmitted_eq_instr, Decoded.instr.injEq, reduceCtorEq, false_implies]
  all_goals
    intro h
    simp only [instrLength, *]
    grind [Instr.length]

end Sys2Proof

namespace Sys2Proof.Machine

/-- The bytes of an instruction that the fetch reads first: byte 0, and byte 1 after the prefix 1Fh (R81, R106). -/
def opCodeBytes (bs : List Byte) : List Byte := if bs.take 1 = [0x1F] then bs.take 2 else bs.take 1

theorem fetchOpCode_of_memRead {s : State} {n : Nat} {bs : List Byte} (h : memRead s s.pc n = .next bs)
    (h0 : bs ≠ []) (h1 : bs ≠ [0x1F]) : fetchOpCode s = .next (opCodeBytes bs) := by
  obtain ⟨rfl, htake⟩ := memRead_take h
  have hn : 1 ≤ bs.length := List.length_pos_iff.mpr h0
  unfold fetchOpCode opCodeBytes
  rw [htake 1 hn, andThen_next]
  split
  case isTrue hp =>
    have : 2 ≤ bs.length := by
      by_contra hlt
      exact h1 (by rwa [List.take_of_length_le (by omega)] at hp)
    exact htake 2 this
  case isFalse => rfl

/-- Only after the prefix 1Fh does the length table look past byte 0 (R106). -/
theorem instrLength_cons_of_ne_prefix (g : Bool) {b0 : Byte} (t : List Byte) (h : b0 ≠ 0x1F) :
    instrLength g (b0 :: t) = instrLength g [b0] := by
  have hb0 : b0.toNat ≠ 0x1F := fun e => h (BitVec.eq_of_toNat_eq e)
  simp only [instrLength]
  split
  case h_5 =>
    split
    case h_15 hprefix => exact absurd hprefix hb0
    all_goals rfl
  all_goals rfl

theorem instrLength_opCodeBytes (g : Bool) (bs : List Byte) : instrLength g (opCodeBytes bs) = instrLength g bs := by
  match bs with
  | [] => rfl
  | b0 :: t =>
    by_cases hprefix : b0 = 0x1F
    · subst hprefix
      cases t <;> rfl
    · have hop : opCodeBytes (b0 :: t) = [b0] := if_neg (by simpa using hprefix)
      rw [hop, instrLength_cons_of_ne_prefix g t hprefix]

theorem fetch_of_decode {s : State} {bs : List Byte} {i : Instr} (hpc : s.cfg.endPc ≠ some s.pc)
    (hread : memRead s s.pc bs.length = .next bs) (hdec : decode s.cfg.admitGkRows bs = .instr i []) :
    fetch s = .next i := by
  have hop : fetchOpCode s = .next (opCodeBytes bs) :=
    fetchOpCode_of_memRead hread (by rintro rfl; cases hdec) (by rintro rfl; cases hdec)
  obtain ⟨htable, hlen⟩ := instrLength_of_decode hdec
  have hlength : instrLength s.cfg.admitGkRows (opCodeBytes bs) = some bs.length := by
    rw [instrLength_opCodeBytes, htable, hlen, List.length_nil, Nat.add_zero]
  exact fetch_eq_next.mpr ⟨hpc, opCodeBytes bs, bs.length, bs, [], hop, hlength, hread, hdec⟩

theorem step_of_fetch {s : State} {i : Instr} (h : fetch s = .next i) : step s = exec i s := by
  unfold step
  rw [h, andThen_next]

/-- Settles O7: such bytes are what the fetch reads, and the step is exec of the fetched instruction. -/
theorem stepRunsDecodedInstruction : Obligations.StepRunsDecodedInstruction := by
  intro s bs i hpc hread hdec
  exact step_of_fetch (fetch_of_decode hpc hread hdec)

end Sys2Proof.Machine
end

section
/-! What an instruction that answers a next state has done, said once for all of `exec`: each statement about every
instruction is a case analysis over `Completion`. -/

namespace Sys2Proof.Machine

/-! ### The forms of one shape -/

theorem exec_of_testForm {i : Instr} {s : State} {dst : Loc} {src : Src} (h : testForm i = some (dst, src)) :
    ∃ f, exec i s = testResult f i.length dst src s := by
  cases i <;> simp_all [testForm] <;> (obtain ⟨rfl, rfl⟩ := h; exact ⟨_, rfl⟩)

theorem exec_of_daForm {i : Instr} {s : State} {dst : Loc} (h : daForm i = some dst) :
    exec i s = decimalAdjust dst s := by
  cases i <;> simp_all [daForm] <;> (subst h; rfl)

theorem length_of_daForm {i : Instr} {dst : Loc} (h : daForm i = some dst) : i.length = 2 := by
  cases i <;> simp_all [daForm] <;> rfl

theorem writes_of_daForm {i : Instr} {s : State} {dst : Loc} (h : daForm i = some dst) :
    writes s i = placeOf s dst := by
  cases i <;> simp_all [daForm] <;> (subst h; rfl)

theorem operandForm_of_addForm {i : Instr} {p : Loc × Src} (h : addForm i = some p) : operandForm i = some p := by
  simp [operandForm, h]

theorem operandForm_of_andForm {i : Instr} {p : Loc × Src} (h : andForm i = some p) : operandForm i = some p := by
  cases i <;> simp_all [andForm, addForm, operandForm]

theorem operandForm_of_testForm {i : Instr} {p : Loc × Src} (h : testForm i = some p) : operandForm i = some p := by
  cases i <;> simp_all [testForm, andForm, addForm, operandForm]

theorem operandForm_of_daForm {i : Instr} {dst : Loc} (h : daForm i = some dst) : operandForm i = none := by
  cases i <;> simp_all [daForm, testForm, andForm, addForm, operandForm]

/-! ### Everything an instruction can do -/

/-- From `s` the instruction completes in the state given: what it has checked, and what it has changed. Of the byte
`v` that TCMX and TMX test nothing is said. -/
inductive Completion (s : State) : Instr → State → Prop
  | brk : s.cfg.brkMode = .nop → Completion s .brk (advance s 1)
  | srp {im : Byte} : Completion s (.srp im) (advance (putRp s im) 2)
  | add {i : Instr} {dst : Loc} {src : Src} {o : Operands} :
      addForm i = some (dst, src) → operands s dst src = .next o →
      Completion s i
        (advance (putFlags (regPut s o.da (o.a + o.b)) (addFlags o.a o.b s.flags) addDefines) i.length)
  | and {i : Instr} {dst : Loc} {src : Src} {o : Operands} :
      andForm i = some (dst, src) → operands s dst src = .next o →
      Completion s i
        (advance (putFlags (regPut s o.da (o.a &&& o.b)) (logicFlags (o.a &&& o.b) s.flags) logicDefines) i.length)
  | test {i : Instr} {dst : Loc} {src : Src} {o : Operands} {v : Byte} :
      testForm i = some (dst, src) → operands s dst src = .next o →
      Completion s i (advance (putFlags s (logicFlags v s.flags) logicDefines) i.length)
  | da {i : Instr} {dst : Loc} {da : Addr12} {row : DaRow} :
      daForm i = some dst → resolve s dst = .next da → readable s da = true → regClass s.cfg da ≠ .flags →
      flagsMeet s.undef.flags daReads = false → daRowOf s.flags (regVal s da) = some row →
      Completion s i
        (advance ((putFlags (regPut s da (regVal s da + row.add))
          (daFlags row (regVal s da + row.add) s.draws s.flags) daDefines).setDraws (s.draws + 1)) 2)
  | djnz {d : Nibble} {ra : Byte} :
      s.undef.rp = false → readable s (wr s.rp d) = true →
      Completion s (.djnz d ra)
        ((regPut s (wr s.rp d) (regVal s (wr s.rp d) - 1)).setPc
          (if regVal s (wr s.rp d) - 1 ≠ 0 then relTarget s 2 ra else nextPc s 2))
  | jr {cc : Cond} {ra : Byte} :
      flagsMeet s.undef.flags (condReads cc) = false →
      Completion s (.jr cc ra) (s.setPc (if condHolds s.flags cc then relTarget s 2 ra else nextPc s 2))
  | jp {cc : Cond} {da16 : Addr16} :
      flagsMeet s.undef.flags (condReads cc) = false →
      Completion s (.jp cc da16) (s.setPc (if condHolds s.flags cc then da16 else nextPc s 3))
  | ld {d : Nibble} {im : Byte} :
      s.undef.rp = false → modelled s.cfg (wr s.rp d) = true →
      Completion s (.ld_r_IM d im) (advance (regPut s (wr s.rp d) im) 2)
  | ldwx {e1 e2 da sa : Addr12} :
      resolve s (.ER e1) = .next da → resolve s (.ER e2) = .next sa →
      da.getLsbD 0 = false → sa.getLsbD 0 = false →
      modelled s.cfg da = true → modelled s.cfg (da + 1) = true →
      readable s sa = true → readable s (sa + 1) = true →
      Completion s (.ldwx_ER_ER e1 e2)
        (advance (regPut (regPut s da (regVal s sa)) (da + 1) (regVal s (sa + 1))) 5)

section
variable {i : Instr} {s t : State} {dst : Loc} {src : Src}

theorem completion_of_addForm (hi : addForm i = some (dst, src)) (h : exec i s = .next t) : Completion s i t := by
  rw [exec_of_addForm hi] at h
  obtain ⟨o, ho, rfl⟩ := addResult_eq_next.mp h
  exact .add hi ho

theorem completion_of_andForm (hi : andForm i = some (dst, src)) (h : exec i s = .next t) : Completion s i t := by
  rw [exec_of_andForm hi] at h
  obtain ⟨o, ho, rfl⟩ := andResult_eq_next.mp h
  exact .and hi ho

theorem completion_of_testForm (hi : testForm i = some (dst, src)) (h : exec i s = .next t) : Completion s i t := by
  obtain ⟨f, hf⟩ := exec_of_testForm (s := s) hi
  rw [hf] at h
  obtain ⟨o, ho, rfl⟩ := testResult_eq_next.mp h
  exact .test hi ho

theorem completion_of_daForm (hi : daForm i = some dst) (h : exec i s = .next t) : Completion s i t := by
  rw [exec_of_daForm hi] at h
  obtain ⟨da, row, hd, hr, hc, hf, hrow, rfl⟩ := decimalAdjust_eq_next.mp h
  exact .da hi hd hr hc hf hrow

end

/-- An instruction that answers a next state has completed in one of the ways of `Completion`. -/
theorem completion_of_exec {i : Instr} {s t : State} (h : exec i s = .next t) : Completion s i t := by
  cases i with
  | brk =>
    obtain ⟨hm, rfl⟩ := execBrk_eq_next.mp h
    exact .brk hm
  | srp im =>
    cases h
    exact .srp
  | djnz d ra =>
    obtain ⟨hrp, hr, rfl⟩ := execDjnz_eq_next.mp h
    exact .djnz hrp hr
  | jr cc ra =>
    obtain ⟨hf, rfl⟩ := execJr_eq_next.mp h
    exact .jr hf
  | jp cc da16 =>
    obtain ⟨hf, rfl⟩ := execJp_eq_next.mp h
    exact .jp hf
  | ld_r_IM d im =>
    obtain ⟨hrp, hm, rfl⟩ := execLd_eq_next.mp h
    exact .ld hrp hm
  | ldwx_ER_ER e1 e2 =>
    obtain ⟨da, sa, hd, hs, hde, hse, hm, hm1, hr, hr1, rfl⟩ := execLdwx_eq_next.mp h
    exact .ldwx hd hs hde hse hm hm1 hr hr1
  | add_r_r | add_r_Ir | add_R_R | add_R_IR | add_R_IM | add_IR_IM | addx_ER_ER | addx_ER_IM =>
    exact completion_of_addForm rfl h
  | and_r_r | and_r_Ir | and_R_R | and_R_IR | and_R_IM | and_IR_IM => exact completion_of_andForm rfl h
  | tcmx_ER_ER | tcmx_ER_IM | tmx_ER_ER | tmx_ER_IM => exact completion_of_testForm rfl h
  | da_R | da_IR => exact completion_of_daForm rfl h

end Sys2Proof.Machine
end

section
/-! Where pc is after an instruction, and which locations it has read and written. -/

namespace Sys2Proof.Machine

/-! ### The program counter -/

theorem length_encode (i : Instr) : (encode i).length = i.length := by cases i <;> rfl

/-- Settles O54: only DJNZ, JR and JP set pc to anything but the address past themselves. -/
theorem pcMovesPastTheInstruction : Obligations.PcMovesPastTheInstruction := by
  intro i s t h
  rw [length_encode]
  cases completion_of_exec h with
  | brk | srp | ld | ldwx => exact .inl (by simp [Instr.length])
  | add | and | test => exact .inl (by simp)
  | da hi => exact .inl (by simp [length_of_daForm hi])
  | djnz =>
    rw [State.setPc_pc]
    split
    · exact .inr (.inl ⟨_, _, rfl, rfl⟩)
    · exact .inl rfl
  | jr =>
    rw [State.setPc_pc]
    split
    · exact .inr (.inr (.inl ⟨_, _, rfl, rfl, ‹_›⟩))
    · exact .inl rfl
  | jp =>
    rw [State.setPc_pc]
    split
    · exact .inr (.inr (.inr ⟨_, _, rfl, rfl, ‹_›⟩))
    · exact .inl rfl

/-! ### The locations an instruction reads and writes -/

theorem mem_placeOf {s : State} {l : Loc} {a b : Addr12} (h : resolve s l = .next a) : b ∈ placeOf s l ↔ b = a := by
  rw [placeOf_of_next h, List.mem_singleton]

theorem resolve_r {s : State} (n : Nibble) (h : s.undef.rp = false) : resolve s (.r n) = .next (wr s.rp n) :=
  resolve_r_eq_next.mpr ⟨h, rfl⟩

theorem resolve_R {s : State} (b : Byte) (h : s.undef.rp = false) : resolve s (.R b) = .next (eaR s.rp b) :=
  resolve_R_eq_next.mpr ⟨h, rfl⟩

/-- An operand resolves only if its pointer's location can be read (R99, R100). -/
theorem readable_of_mem_pointerOf {s : State} {l : Loc} {da a : Addr12} (h : resolve s l = .next da)
    (ha : a ∈ pointerOf s l) : readable s a = true := by
  cases l with
  | r | R | ER => cases ha
  | Ir n =>
    obtain ⟨hrp, hr, -⟩ := resolve_Ir_eq_next.mp h
    rwa [(mem_placeOf (resolve_r n hrp)).mp ha]
  | IR b =>
    obtain ⟨hrp, hr, -⟩ := resolve_IR_eq_next.mp h
    rwa [(mem_placeOf (resolve_R b hrp)).mp ha]

theorem readable_of_mem_operandReads {s : State} {l : Loc} {da a : Addr12} (h : resolve s l = .next da)
    (hr : readable s da = true) (ha : a ∈ operandReads s l) : readable s a = true := by
  rcases List.mem_append.mp ha with ha | ha
  · exact readable_of_mem_pointerOf h ha
  · rwa [(mem_placeOf h).mp ha]

theorem readable_of_mem_sourceReads {s : State} {dst : Loc} {src : Src} {o : Operands} {a : Addr12}
    (ho : operands s dst src = .next o) (ha : a ∈ sourceReads s src) : readable s a = true := by
  obtain ⟨-, -, -, -, hsrc⟩ := operands_eq_next.mp ho
  cases src with
  | im v => cases ha
  | loc l =>
    obtain ⟨sa, hs, hr, -⟩ := hsrc
    exact readable_of_mem_operandReads hs hr ha

theorem reads_of_operandForm {i : Instr} {dst : Loc} {src : Src} (s : State) (h : operandForm i = some (dst, src)) :
    reads s i = operandReads s dst ++ sourceReads s src := by
  simp only [reads, h]

theorem reads_of_daForm {i : Instr} {dst : Loc} (s : State) (h : daForm i = some dst) :
    reads s i = operandReads s dst := by
  simp only [reads, operandForm_of_daForm h, h]

theorem readable_of_operands {i : Instr} {s : State} {dst : Loc} {src : Src} {o : Operands} {a : Addr12}
    (hi : operandForm i = some (dst, src)) (ho : operands s dst src = .next o) (ha : a ∈ reads s i) :
    readable s a = true := by
  obtain ⟨hd, hr, -⟩ := operands_eq_next.mp ho
  rw [reads_of_operandForm s hi, List.mem_append] at ha
  rcases ha with ha | ha
  · exact readable_of_mem_operandReads hd hr ha
  · exact readable_of_mem_sourceReads ho ha

/-- The two locations of an LDWX operand. -/
theorem mem_pair {s : State} {e a b : Addr12} (h : resolve s (.ER e) = .next a)
    (hb : b ∈ (placeOf s (.ER e)).flatMap fun x => [x, x + 1]) : b = a ∨ b = a + 1 := by
  simpa [placeOf_of_next h] using hb

/-- Every location that an instruction has read held a value. -/
theorem readable_of_mem_reads {i : Instr} {s t : State} {a : Addr12} (h : exec i s = .next t) (ha : a ∈ reads s i) :
    readable s a = true := by
  cases completion_of_exec h with
  | brk | srp | jr | jp | ld => cases ha
  | add hi ho => exact readable_of_operands (operandForm_of_addForm hi) ho ha
  | and hi ho => exact readable_of_operands (operandForm_of_andForm hi) ho ha
  | test hi ho => exact readable_of_operands (operandForm_of_testForm hi) ho ha
  | da hi hd hr =>
    rw [reads_of_daForm s hi] at ha
    exact readable_of_mem_operandReads hd hr ha
  | djnz hrp hr => rwa [(mem_placeOf (resolve_r _ hrp)).mp ha]
  | ldwx _ hs _ _ _ _ hr hr1 =>
    rcases mem_pair hs ha with rfl | rfl
    · exact hr
    · exact hr1

/-- LD, DJNZ and LDWX: they write a location and have no flag effect of their own, so that the location may be Flags
(R42). -/
def StoresOnly (i : Instr) : Prop :=
  (∃ d im, i = .ld_r_IM d im) ∨ (∃ d ra, i = .djnz d ra) ∨ ∃ e1 e2, i = .ldwx_ER_ER e1 e2

theorem resultPlace_eq_true {s : State} {a : Addr12} :
    resultPlace s a = true ↔ readable s a = true ∧ regClass s.cfg a ≠ .flags := by simp [resultPlace]

theorem resultPlace_of_operands {s : State} {dst : Loc} {src : Src} {o : Operands} {a : Addr12}
    (ho : operands s dst src = .next o) (ha : a ∈ placeOf s dst) : resultPlace s a = true := by
  obtain ⟨hd, hr, hc, -⟩ := operands_eq_next.mp ho
  rw [(mem_placeOf hd).mp ha]
  exact resultPlace_eq_true.mpr ⟨hr, hc⟩

/-- What an instruction has written: a result place, or any modelled location where it has no flag effect. -/
theorem mem_writes_cases {i : Instr} {s t : State} {a : Addr12} (h : exec i s = .next t) (ha : a ∈ writes s i) :
    resultPlace s a = true ∨ (modelled s.cfg a = true ∧ StoresOnly i) := by
  cases completion_of_exec h with
  | brk | srp | jr | jp => cases ha
  | test hi => rw [writes_of_testForm hi] at ha; cases ha
  | add hi ho => exact .inl (resultPlace_of_operands ho (writes_of_addForm hi ▸ ha))
  | and hi ho => exact .inl (resultPlace_of_operands ho (writes_of_andForm hi ▸ ha))
  | da hi hd hr hc =>
    rw [writes_of_daForm hi, mem_placeOf hd] at ha
    exact .inl (resultPlace_eq_true.mpr (ha ▸ ⟨hr, hc⟩))
  | djnz hrp hr =>
    rw [(mem_placeOf (resolve_r _ hrp)).mp ha]
    exact .inr ⟨(readable_eq_true.mp hr).1, .inr (.inl ⟨_, _, rfl⟩)⟩
  | ld hrp hm =>
    rw [(mem_placeOf (resolve_r _ hrp)).mp ha]
    exact .inr ⟨hm, .inl ⟨_, _, rfl⟩⟩
  | ldwx hd _ _ _ hm hm1 =>
    refine .inr ⟨?_, .inr (.inr ⟨_, _, rfl⟩)⟩
    rcases mem_pair hd ha with rfl | rfl
    · exact hm
    · exact hm1

theorem modelled_of_mem_writes {i : Instr} {s t : State} {a : Addr12} (h : exec i s = .next t) (ha : a ∈ writes s i) :
    modelled s.cfg a = true := by
  rcases mem_writes_cases h ha with hp | ⟨hm, -⟩
  · exact (readable_eq_true.mp (resultPlace_eq_true.mp hp).1).1
  · exact hm

theorem modelled_eq_false {c : Config} {a : Addr12} (h : regClass c a = .device ∨ regClass c a = .absent) :
    modelled c a = false := by
  rcases h with h | h <;> simp [modelled, h]

/-- Settles O23: the reads of a completed instruction were readable and its writes modelled. -/
theorem unmodelledLocationsRefused : Obligations.UnmodelledLocationsRefused := by
  refine ⟨fun s a v h => ?_, fun i s t a h ha => ?_, fun i s t a h ha => readable_of_mem_reads h ha⟩
  · have hm := modelled_eq_false h
    exact ⟨regRead_eq_refused.mpr ⟨hm, rfl⟩, regWrite_eq_refused.mpr ⟨hm, rfl⟩⟩
  · refine modelled_eq_true.mp ?_
    rcases List.mem_append.mp ha with ha | ha
    · exact modelled_of_mem_writes h ha
    · exact (readable_eq_true.mp (readable_of_mem_reads h ha)).1

end Sys2Proof.Machine
end

section
/-! The flag table of R38. An instruction that has not written a location of class flags has changed the flags, and
defined them, only as its row says; of the instructions that can write one, none has a flag effect (R42). -/

namespace Sys2Proof.Machine

/-! ### The rows -/

theorem flagRow_of_addForm {i : Instr} {p : Loc × Src} (h : addForm i = some p) :
    flagRow i = ⟨.written, .written, .written, .written, .cleared, .written⟩ := by
  cases i <;> simp_all [addForm] <;> rfl

theorem flagRow_of_andForm {i : Instr} {p : Loc × Src} (h : andForm i = some p) :
    flagRow i = ⟨.kept, .written, .written, .cleared, .kept, .kept⟩ := by
  cases i <;> simp_all [andForm] <;> rfl

theorem flagRow_of_testForm {i : Instr} {p : Loc × Src} (h : testForm i = some p) :
    flagRow i = ⟨.kept, .written, .written, .cleared, .kept, .kept⟩ := by
  cases i <;> simp_all [testForm] <;> rfl

theorem flagRow_of_daForm {i : Instr} {dst : Loc} (h : daForm i = some dst) :
    flagRow i = ⟨.written, .written, .written, .unspecified, .kept, .kept⟩ := by
  cases i <;> simp_all [daForm] <;> rfl

/-- No row writes D from a result: an instruction keeps it or clears it (R32). -/
theorem flagRow_d (i : Instr) : (flagRow i).d = .kept ∨ (flagRow i).d = .cleared := by
  cases i <;> simp [flagRow]

theorem rowAllows_add (a b : Byte) (f : Flags) :
    rowAllows ⟨.written, .written, .written, .written, .cleared, .written⟩ f (addFlags a b f) = true := by
  simp [rowAllows, effectAllows, addFlags]

theorem rowDefines_add (u : Flags) :
    rowDefines ⟨.written, .written, .written, .written, .cleared, .written⟩ u (flagsMinus u addDefines) = true := by
  simp [rowDefines, effectDefines, flagsMinus, addDefines]

theorem rowAllows_logic (v : Byte) (f : Flags) :
    rowAllows ⟨.kept, .written, .written, .cleared, .kept, .kept⟩ f (logicFlags v f) = true := by
  simp [rowAllows, effectAllows, logicFlags]

theorem rowDefines_logic (u : Flags) :
    rowDefines ⟨.kept, .written, .written, .cleared, .kept, .kept⟩ u (flagsMinus u logicDefines) = true := by
  simp [rowDefines, effectDefines, flagsMinus, logicDefines]

theorem rowAllows_da (row : DaRow) (v : Byte) (n : Nat) (f : Flags) :
    rowAllows ⟨.written, .written, .written, .unspecified, .kept, .kept⟩ f (daFlags row v n f) = true := by
  simp [rowAllows, effectAllows, daFlags]

theorem rowDefines_da (u : Flags) :
    rowDefines ⟨.written, .written, .written, .unspecified, .kept, .kept⟩ u (flagsMinus u daDefines) = true := by
  simp [rowDefines, effectDefines, flagsMinus, daDefines]

theorem rowAllows_kept (f : Flags) : rowAllows ⟨.kept, .kept, .kept, .kept, .kept, .kept⟩ f f = true := by
  simp [rowAllows, effectAllows]

theorem rowDefines_kept (u : Flags) : rowDefines ⟨.kept, .kept, .kept, .kept, .kept, .kept⟩ u u = true := by
  simp [rowDefines, effectDefines]

/-- Whatever the row, F2 and F1 are kept and D does not become 1. -/
theorem kept_of_rowAllows {i : Instr} {f g : Flags} (h : rowAllows (flagRow i) f g = true) :
    (f.d = false → g.d = false) ∧ g.f2 = f.f2 ∧ g.f1 = f.f1 := by
  simp only [rowAllows, Bool.and_eq_true, beq_iff_eq] at h
  obtain ⟨⟨⟨⟨-, hd⟩, -⟩, hf2⟩, hf1⟩ := h
  refine ⟨fun hf => ?_, hf2, hf1⟩
  rcases flagRow_d i with hr | hr <;> simpa [hr, effectAllows, hf] using hd

/-! ### The table -/

theorem regPut_flags_of_ne {s : State} {a : Addr12} (v : Byte) (h : regClass s.cfg a ≠ .flags) :
    (regPut s a v).flags = s.flags := by rw [regPut_flags, if_neg h]

theorem regPut_undef_flags_of_ne {s : State} {a : Addr12} (v : Byte) (h : regClass s.cfg a ≠ .flags) :
    (regPut s a v).undef.flags = s.undef.flags := by rw [regPut_undef_flags, if_neg h]

/-- The flags and what is undefined of them are as the row of the table says. -/
def FollowsRow (i : Instr) (s t : State) : Prop :=
  rowAllows (flagRow i) s.flags t.flags = true ∧ rowDefines (flagRow i) s.undef.flags t.undef.flags = true

theorem followsRow_of_kept {i : Instr} {s t : State} (hi : flagRow i = ⟨.kept, .kept, .kept, .kept, .kept, .kept⟩)
    (hf : t.flags = s.flags) (hu : t.undef.flags = s.undef.flags) : FollowsRow i s t := by
  rw [FollowsRow, hi, hf, hu]
  exact ⟨rowAllows_kept _, rowDefines_kept _⟩

/-- The flag table, for an instruction that writes no location of class flags. The result of ADD, AND and DA never
goes to one, so what is undefined before their flag update is what was undefined in `s`. -/
theorem followsRow_of_exec {i : Instr} {s t : State} (h : exec i s = .next t)
    (hw : ∀ a ∈ writes s i, regClass s.cfg a ≠ .flags) : FollowsRow i s t := by
  cases completion_of_exec h with
  | brk | srp | jr | jp => exact followsRow_of_kept rfl rfl rfl
  | test hi =>
    rw [FollowsRow, flagRow_of_testForm hi]
    exact ⟨rowAllows_logic _ _, rowDefines_logic _⟩
  | add hi ho =>
    obtain ⟨-, -, hc, -⟩ := operands_eq_next.mp ho
    rw [FollowsRow, flagRow_of_addForm hi, ← regPut_undef_flags_of_ne _ hc]
    exact ⟨rowAllows_add _ _ _, rowDefines_add _⟩
  | and hi ho =>
    obtain ⟨-, -, hc, -⟩ := operands_eq_next.mp ho
    rw [FollowsRow, flagRow_of_andForm hi, ← regPut_undef_flags_of_ne _ hc]
    exact ⟨rowAllows_logic _ _, rowDefines_logic _⟩
  | da hi _ _ hc =>
    rw [FollowsRow, flagRow_of_daForm hi, ← regPut_undef_flags_of_ne _ hc]
    exact ⟨rowAllows_da _ _ _ _, rowDefines_da _⟩
  | djnz hrp =>
    have hc := hw _ ((mem_placeOf (resolve_r _ hrp)).mpr rfl)
    exact followsRow_of_kept rfl (regPut_flags_of_ne _ hc) (regPut_undef_flags_of_ne _ hc)
  | ld hrp =>
    have hc := hw _ ((mem_placeOf (resolve_r _ hrp)).mpr rfl)
    exact followsRow_of_kept rfl (regPut_flags_of_ne _ hc) (regPut_undef_flags_of_ne _ hc)
  | @ldwx e1 e2 da sa hd =>
    have hpair : writes s (.ldwx_ER_ER e1 e2) = [da, da + 1] := by simp [writes, placeOf_of_next hd]
    have hc : regClass s.cfg da ≠ .flags := hw _ (by simp [hpair])
    have hc1 : regClass (regPut s da (regVal s sa)).cfg (da + 1) ≠ .flags := by
      rw [regPut_cfg]
      exact hw _ (by simp [hpair])
    refine followsRow_of_kept rfl ?_ ?_
    · rw [advance_flags, regPut_flags_of_ne _ hc1, regPut_flags_of_ne _ hc]
    · rw [advance_undef, regPut_undef_flags_of_ne _ hc1, regPut_undef_flags_of_ne _ hc]

/-- Settles O51: only the location at FLAGS_ADDR can be of class flags. -/
theorem flagTableHolds : Obligations.FlagTableHolds := by
  intro i s t h hw
  refine followsRow_of_exec h fun a ha hc => hw ?_
  rwa [← addr_of_regClass_flags hc]

/-- Settles O56: the table keeps F2 and F1 and never sets D, so a location of class flags was written. -/
theorem dAndUserFlagsOnlyByFlagsWrite : Obligations.DAndUserFlagsOnlyByFlagsWrite := by
  intro i s t h hchange
  obtain ⟨a, ha, hc⟩ : ∃ a ∈ writes s i, regClass s.cfg a = .flags := by
    by_contra hno
    push Not at hno
    obtain ⟨hd, hf2, hf1⟩ := kept_of_rowAllows (followsRow_of_exec h hno).1
    rcases hchange with ⟨hd0, hd1⟩ | hne | hne
    · exact absurd hd1 (by simp [hd hd0])
    · exact hne hf2
    · exact hne hf1
  refine ⟨addr_of_regClass_flags hc ▸ ha, ?_⟩
  rcases mem_writes_cases h ha with hp | ⟨-, hi⟩
  · exact absurd hc (resultPlace_eq_true.mp hp).2
  · exact hi

end Sys2Proof.Machine
end

section
/-! The fetch past the end of program memory, the working-register window, the Flags byte, the condition codes and the
state after reset. -/

namespace Sys2Proof.Machine

/-! ### The fetch past the end -/

theorem memRead_past_end {s : State} {a : Addr16} {n : Nat}
    (h : s.cfg.progSize < a.toNat + n ∨ 65536 < a.toNat + n) :
    memRead s a n = .fault .fetchOutsideProgramMemory := if_pos h

theorem step_of_fetchOpCode_fault {s : State} {f : Fault} (he : s.cfg.endPc ≠ some s.pc)
    (h : fetchOpCode s = .fault f) : step s = .fault f := by
  simp only [step, fetch, he, h, if_false, andThen_fault]

theorem step_of_memRead_fault {s : State} {op : List Byte} {n : Nat} {f : Fault} (he : s.cfg.endPc ≠ some s.pc)
    (hop : fetchOpCode s = .next op) (hn : instrLength s.cfg.admitGkRows op = some n)
    (h : memRead s s.pc n = .fault f) : step s = .fault f := by
  simp only [step, fetch, he, hop, hn, h, if_false, andThen_next, andThen_fault]

/-- Settles O11: byte 0, the byte after 1Fh and the whole instruction are each read within bounds or not at
all. -/
theorem fetchPastTheEndFaults : Obligations.FetchPastTheEndFaults := by
  intro s he
  refine ⟨fun h => ?_, fun hprefix h => ?_, fun op n hop hn h => ?_⟩
  · have hread : memRead s s.pc 1 = .fault .fetchOutsideProgramMemory := memRead_past_end (.inl (by omega))
    exact step_of_fetchOpCode_fault he (by rw [fetchOpCode, hread, andThen_fault])
  · have hop : fetchOpCode s = memRead s s.pc 2 := by rw [fetchOpCode, hprefix, andThen_next, if_pos rfl]
    exact step_of_fetchOpCode_fault he (hop.trans (memRead_past_end h))
  · exact step_of_memRead_fault he hop hn (memRead_past_end h)

/-! ### Working registers -/

/-- The middle field of a concatenation of three. -/
theorem middle_append {l m n : Nat} (x : BitVec l) (y : BitVec m) (z : BitVec n) :
    (x ++ y ++ z).extractLsb' n m = y := by
  ext k hk
  simp [BitVec.getElem_extractLsb', BitVec.getLsbD_append, hk]

theorem wr_page (rp : Byte) (n : Nibble) : (wr rp n).extractLsb' 8 4 = rp.extractLsb' 0 4 := by
  unfold wr
  rw [BitVec.append_assoc]
  exact upper_append _ _

theorem wr_group (rp : Byte) (n : Nibble) : (wr rp n).extractLsb' 4 4 = rp.extractLsb' 4 4 := middle_append _ _ _

theorem wr_number (rp : Byte) (n : Nibble) : (wr rp n).extractLsb' 0 4 = n := lower_append _ _

theorem eaR_escape (rp : Byte) (n : Nibble) : eaR rp ((0xE : Nibble) ++ n) = wr rp n := by
  unfold eaR
  rw [if_pos (upper_append _ n)]
  exact congrArg (wr rp) (lower_append _ n)

theorem resolve_ER_escape {s : State} (n : Nibble) (h : s.undef.rp = false) :
    resolve s (.ER ((0xEE : Byte) ++ n)) = .next (wr s.rp n) :=
  eaER_eq_next.mpr (.inl ⟨upper_append _ n, s.rp, rpOf_eq_next.mpr ⟨h, rfl⟩,
    congrArg (wr s.rp) (lower_append _ n).symm⟩)

/-- Settles O16, field by field of `wr`. -/
theorem workingRegisterWindow : Obligations.WorkingRegisterWindow :=
  ⟨fun rp n => ⟨wr_page rp n, wr_group rp n, wr_number rp n⟩, fun _ n h => resolve_r n h,
    fun _ h => ⟨resolve_ER_escape 3 h, resolve_ER_escape 2 h⟩, by decide⟩

/-- Settles O20: each of the two escapes hands its low nibble to `wr`. -/
theorem onePlaceThreeNames : Obligations.OnePlaceThreeNames := by
  intro s n h
  exact ⟨resolve_r n h, by rw [resolve_R _ h, eaR_escape], resolve_ER_escape n h⟩

/-! ### The Flags byte and the condition codes -/

/-- Settles O25: `flagsOfByte` names the bits, and the two translations are inverse. -/
theorem flagsByteLayout : Obligations.FlagsByteLayout := by
  refine ⟨fun f => ?_, flagsToByte_flagsOfByte⟩
  have h := flagsOfByte_flagsToByte f
  exact ⟨congrArg Flags.c h, congrArg Flags.z h, congrArg Flags.s h, congrArg Flags.v h, congrArg Flags.d h,
    congrArg Flags.h h, congrArg Flags.f2 h, congrArg Flags.f1 h, h⟩

/-- The upper eight codes are the negations of the lower eight, in order. -/
theorem condHolds_add_eight (f : Flags) (k : Nibble) :
    condHolds f (Cond.ofBits (k + 8)) = !condHolds f (Cond.ofBits k) := by
  have byCond (cc : Cond) : condHolds f (Cond.ofBits (cc.toBits + 8)) = !condHolds f cc := by
    cases cc <;> simp [Cond.toBits, Cond.ofBits, condHolds]
  simpa using byCond (Cond.ofBits k)

/-- Settles O28: codes 0h to 7h are the tests themselves, the others their negations. -/
theorem conditionTests : Obligations.ConditionTests := by
  intro f
  refine ⟨rfl, .rfl, .rfl, .rfl, .rfl, .rfl, .rfl, .rfl, rfl, ?_, ?_, ?_, ?_, ?_, ?_, ?_, condHolds_add_eight f⟩
  all_goals simp [Cond.ofBits, condHolds]

/-! ### Reset -/

/-- Settles O58: nothing is listed in either memory, so nothing is out of order or misplaced. -/
theorem invariantAtReset : Obligations.InvariantAtReset :=
  ⟨⟨reset_memory_wf, rfl⟩, rfl, by decide⟩

/-- The Register File map of the reset state, region by region (R8). -/
theorem regClass_reset (a : Addr12) : regClass State.reset.cfg a =
    if a.toNat < 0xF00 then .ram else if a.toNat < 0xFFC then .device else if a = 0xFFC then .flags
    else if a = 0xFFD then .rp else if a = 0xFFE then .sph else .spl := by
  rcases lt_or_ge a.toNat 0xF00 with hram | hram
  · have hkind : kindAt Config.defaultMap a = some .ram := if_pos ⟨by bv_omega, by bv_omega⟩
    simp [regClass, State.reset, Config.default, hkind, kindClass, hram]
  rcases lt_or_ge a.toNat 0xFFC with hdev | hdev
  · have hkind : kindAt Config.defaultMap a = some .device :=
      (if_neg (by bv_omega)).trans (if_pos ⟨by bv_omega, by bv_omega⟩)
    simp [regClass, State.reset, Config.default, hkind, kindClass, hram.not_gt, hdev]
  obtain rfl | rfl | rfl | rfl : a = 0xFFC ∨ a = 0xFFD ∨ a = 0xFFE ∨ a = 0xFFF := by bv_omega
  all_goals rfl

/-- At reset every location of storage reads as 0 (log 1): nothing is listed, and `blank` is 0. -/
theorem regRead_reset {a : Addr12} (h : hasStorage State.reset.cfg a = true) : regRead State.reset a = .next 0 := by
  have hmodelled : modelled State.reset.cfg a = true := by
    unfold hasStorage at h
    unfold modelled
    split at h <;> simp_all
  have hval : regVal State.reset a = 0 := by
    unfold hasStorage at h
    unfold regVal
    split at h <;> simp_all [State.reset, Config.default, regFileFind, cellFind]
  exact regRead_eq_next.mpr ⟨readable_eq_true.mpr ⟨hmodelled, unwritten_of_allDefined invariantAtReset.2 a⟩, hval⟩

/-- Settles O59: the parameters as they stand in `Config.default`, the reads from the map and the empty storage. -/
theorem resetValues : Obligations.ResetValues := by
  have hram (a : Addr12) (ha : a.toNat < 0xF00) : hasStorage State.reset.cfg a = true := by
    simp [hasStorage, regClass_reset, ha]
  exact ⟨rfl, rfl, rfl, rfl, rfl, fun a ha => regRead_reset (hram a ha), regRead_reset rfl, regRead_reset rfl,
    rfl, rfl, rfl, rfl, rfl, rfl, regClass_reset⟩

end Sys2Proof.Machine
end

section
/-! Every step keeps the invariant. An instruction changes the state by a few operations only, so a property that
each of these keeps is kept by every instruction and by every step. -/

namespace Sys2Proof.Machine

/-- The property survives every operation by which an instruction changes the state: pc set, RP set, the flags set, a
free value drawn, and a byte written to a modelled location. -/
structure KeptByOperations (P : State → Prop) : Prop where
  setPc : ∀ {s : State} (v : Addr16), P s → P (s.setPc v)
  setDraws : ∀ {s : State} (n : Nat), P s → P (s.setDraws n)
  putRp : ∀ {s : State} (v : Byte), P s → P (putRp s v)
  putFlags : ∀ {s : State} (v d : Flags), P s → P (putFlags s v d)
  regPut : ∀ {s : State} {a : Addr12} (v : Byte), modelled s.cfg a = true → P s → P (regPut s a v)

theorem KeptByOperations.advance {P : State → Prop} (hP : KeptByOperations P) {s : State} (n : Nat) (h : P s) :
    P (advance s n) := hP.setPc _ h

/-- What every operation keeps, every instruction keeps. -/
theorem KeptByOperations.exec {P : State → Prop} (hP : KeptByOperations P) {i : Instr} {s t : State}
    (h : exec i s = .next t) (hs : P s) : P t := by
  cases completion_of_exec h with
  | brk => exact hP.advance _ hs
  | srp => exact hP.advance _ (hP.putRp _ hs)
  | jr | jp => exact hP.setPc _ hs
  | test => exact hP.advance _ (hP.putFlags _ _ hs)
  | add _ ho | and _ ho =>
    obtain ⟨-, hr, -⟩ := operands_eq_next.mp ho
    exact hP.advance _ (hP.putFlags _ _ (hP.regPut _ (readable_eq_true.mp hr).1 hs))
  | da _ _ hr => exact hP.advance _ (hP.setDraws _ (hP.putFlags _ _ (hP.regPut _ (readable_eq_true.mp hr).1 hs)))
  | djnz _ hr => exact hP.setPc _ (hP.regPut _ (readable_eq_true.mp hr).1 hs)
  | ld _ hm => exact hP.advance _ (hP.regPut _ hm hs)
  | ldwx _ _ _ _ hm hm1 => exact hP.advance _ (hP.regPut _ (by rwa [regPut_cfg]) (hP.regPut _ hm hs))

/-- What every operation keeps, every step keeps: the fetch changes nothing. -/
theorem KeptByOperations.step {P : State → Prop} (hP : KeptByOperations P) {s t : State} (h : step s = .next t)
    (hs : P s) : P t := by
  obtain ⟨i, -, hi⟩ := step_eq_next.mp h
  exact hP.exec hi hs

/-! ### The invariant -/

theorem storageOnly_eq_true {s : State} :
    storageOnly s = true ↔ ∀ e ∈ s.regs, hasStorage s.cfg (BitVec.ofNat 12 e.1) = true := List.all_eq_true

/-- A modelled location is RP, Flags or storage (R8, R44). -/
theorem hasStorage_of_modelled {c : Config} {a : Addr12} (h : modelled c a = true) (hrp : regClass c a ≠ .rp)
    (hflags : regClass c a ≠ .flags) : hasStorage c a = true := by
  unfold modelled at h
  unfold hasStorage
  split at h <;> simp_all

/-- A write to a modelled location lists none without storage: RP and Flags are kept outside the list. -/
theorem regPut_storageOnly {s : State} {a : Addr12} (v : Byte) (hm : modelled s.cfg a = true)
    (h : storageOnly s = true) : storageOnly (regPut s a v) = true := by
  rw [storageOnly_eq_true] at h ⊢
  rw [regPut_cfg]
  unfold regPut
  split
  case h_1 => exact h
  case h_2 => exact h
  all_goals
    rename_i hclass
    intro e he
    rcases mem_regFileWrite he with rfl | he
    · rw [BitVec.ofNat_toNat, BitVec.setWidth_eq]
      exact hasStorage_of_modelled hm (by simp [hclass]) (by simp [hclass])
    · exact h e he

/-- pc, RP, the flags and the count of draws are no part of the invariant; a register write keeps both its halves. -/
theorem inv_keptByOperations : KeptByOperations Inv where
  setPc _ h := h
  setDraws _ h := h
  putRp _ h := h
  putFlags _ _ h := h
  regPut v hm h := ⟨regPut_wf _ v h.1, regPut_storageOnly v hm h.2⟩

/-! ### What is defined -/

theorem allDefined_putRp {s : State} (v : Byte) (h : AllDefined s) : AllDefined (putRp s v) :=
  ⟨by rw [putRp_undef, h.1]; rfl, h.2⟩

theorem allDefined_putFlags {s : State} (v d : Flags) (h : AllDefined s) : AllDefined (putFlags s v d) :=
  ⟨by rw [putFlags_undef, h.1]; exact congrArg (Undef.mk false) (flagsMinus_zero d), h.2⟩

theorem allDefined_regPut {s : State} {a : Addr12} (v : Byte) (h : AllDefined s) : AllDefined (regPut s a v) := by
  unfold regPut
  split
  case h_1 => exact allDefined_putRp v h
  case h_2 => exact allDefined_putFlags _ _ h
  all_goals exact h

/-- No operation makes anything undefined again (R222). -/
theorem allDefined_keptByOperations : KeptByOperations AllDefined where
  setPc _ h := h
  setDraws _ h := h
  putRp := allDefined_putRp
  putFlags := allDefined_putFlags
  regPut v _ h := allDefined_regPut v h

/-- Settles O57: every operation keeps the invariant, and keeps what is defined defined. -/
theorem stepKeepsInvariant : Obligations.StepKeepsInvariant := fun _ _ h =>
  ⟨inv_keptByOperations.step h, allDefined_keptByOperations.step h⟩

end Sys2Proof.Machine
end

section
/-! Program memory and the Register File: reading within bounds, reading after a write, what an instruction leaves
alone, and that program memory is no data. -/

namespace Sys2Proof.Machine

/-! ### Program memory -/

/-- The bytes of the image from an address up are what a read from there gives (log 3). -/
theorem progBytes_of_cellFind {m : List Host.Cell} {bs : List Byte} {a : Nat}
    (h : ∀ k < bs.length, cellFind m (a + k) = bs[k]?) : progBytes m a bs.length = .next bs := by
  induction bs generalizing a with
  | nil => rfl
  | cons b t ih =>
    have hhead : cellFind m a = some b := h 0 (by simp)
    have htail : progBytes m (a + 1) t.length = .next t := ih fun k hk => by
      rw [Nat.add_assoc, Nat.add_comm 1 k]
      exact h (k + 1) (by simpa using hk)
    simp only [List.length_cons, progBytes, hhead, htail, andThen_next]

/-- Settles O10: the last of the `n` addresses, `addr + n - 1`, decides whether all are within bounds. -/
theorem programReadWithinBounds : Obligations.ProgramReadWithinBounds := by
  rintro s addr n hn
  refine ⟨fun ⟨k, hk, hout⟩ => memRead_past_end (by omega), fun bs hlen h => ?_⟩
  obtain ⟨hsize, hspace, -⟩ := h (n - 1) (by omega)
  subst hlen
  exact memRead_eq_next.mpr ⟨by omega, by omega, progBytes_of_cellFind fun k hk => (h k hk).2.2⟩

/-! ### The Register File -/

/-- Settles O21: a write to a modelled location completes, and the read finds what was written. -/
theorem registerWriteThenRead : Obligations.RegisterWriteThenRead := fun s a v hm =>
  ⟨regPut s a v, regWrite_of_modelled v hm, regRead_put_self v hm⟩

/-- Settles O22: RP and Flags have no location but their own address. -/
theorem registerWriteLeavesTheRest : Obligations.RegisterWriteLeavesTheRest := by
  intro s t a v h
  obtain ⟨-, rfl⟩ := regWrite_eq_next.mp h
  refine ⟨fun b hb => regRead_put_ne s v hb, fun ha => ?_, fun ha => ?_, by simp⟩
  · have hc : regClass s.cfg a ≠ .rp := fun hc => ha (addr_of_regClass_rp hc)
    exact ⟨by rw [regPut_rp, if_neg hc], by rw [regPut_undef_rp, if_neg hc]⟩
  · have hc : regClass s.cfg a ≠ .flags := fun hc => ha (addr_of_regClass_flags hc)
    exact ⟨regPut_flags_of_ne v hc, regPut_undef_flags_of_ne v hc⟩

/-! ### The frame of an instruction -/

/-- The row of an instruction that changes no flag (R38). -/
def keptRow : FlagRow := ⟨.kept, .kept, .kept, .kept, .kept, .kept⟩

/-- A location that may be Flags' only if the instruction changes no flag is not Flags' if it does. -/
theorem regClass_ne_flags_of_row {i : Instr} {c : Config} {a : Addr12} (h : a = c.flagsAddr → flagRow i = keptRow)
    (hi : flagRow i ≠ keptRow) : regClass c a ≠ .flags := fun hc => hi (h (addr_of_regClass_flags hc))

theorem storage_put_ne (s : State) {a b : Addr12} (v : Byte) (h : b ≠ a) :
    regFileFind (regPut s a v).cfg.blank (regPut s a v).regs b = regFileFind s.cfg.blank s.regs b := by
  rw [regPut_cfg, regFileFind_put_ne s v h]

/-- What O50 says of one location: the same byte of storage, and the same read unless flags or RP show there. -/
def Framed (i : Instr) (s t : State) (a : Addr12) : Prop :=
  regFileFind t.cfg.blank t.regs a = regFileFind s.cfg.blank s.regs a ∧
  ((a = s.cfg.flagsAddr → flagRow i = keptRow) → (∀ im, i = .srp im → a ≠ s.cfg.rpAddr) → regRead t a = regRead s a)

section
variable {i : Instr} {s t : State} {a : Addr12}

/-- pc and the count of draws show at no location. -/
theorem framed_advance {n : Nat} (h : Framed i s t a) : Framed i s (advance t n) a := h

theorem framed_setDraws {n : Nat} (h : Framed i s t a) : Framed i s (t.setDraws n) a := h

/-- A result stored elsewhere, with its flags, shows at no location but Flags. -/
theorem framed_result {dst : Loc} {da : Addr12} {v : Byte} {f d : Flags} (ha : a ∉ writes s i)
    (hw : writes s i = placeOf s dst) (hd : resolve s dst = .next da) (hrow : flagRow i ≠ keptRow) :
    Framed i s (putFlags (regPut s da v) f d) a := by
  rw [hw, mem_placeOf hd] at ha
  refine ⟨storage_put_ne s v ha, fun hf _ => ?_⟩
  have hc : regClass (regPut s da v).cfg a ≠ .flags := by
    rw [regPut_cfg]
    exact regClass_ne_flags_of_row hf hrow
  exact (regRead_putFlags _ _ _ hc).trans (regRead_put_ne s v ha)

end

/-- Settles O50: every write an instruction can do is to a place of `writes`, and beside its writes it changes RP or
flags only where SRP or its row of the flag table says so. -/
theorem registerFrame : Obligations.RegisterFrame := by
  intro i s t h a ha
  cases completion_of_exec h with
  | brk | jr | jp => exact ⟨rfl, fun _ _ => rfl⟩
  | srp => exact ⟨rfl, fun _ hrp => regRead_putRp _ _ fun hc => hrp _ rfl (addr_of_regClass_rp hc)⟩
  | test hi =>
    have hrow : flagRow i ≠ keptRow := by simp [flagRow_of_testForm hi, keptRow]
    exact ⟨rfl, fun hf _ => regRead_putFlags _ _ _ (regClass_ne_flags_of_row hf hrow)⟩
  | add hi ho =>
    exact framed_advance (framed_result ha (writes_of_addForm hi) (operands_eq_next.mp ho).1
      (by simp [flagRow_of_addForm hi, keptRow]))
  | and hi ho =>
    exact framed_advance (framed_result ha (writes_of_andForm hi) (operands_eq_next.mp ho).1
      (by simp [flagRow_of_andForm hi, keptRow]))
  | da hi hd =>
    exact framed_advance (framed_setDraws (framed_result ha (writes_of_daForm hi) hd
      (by simp [flagRow_of_daForm hi, keptRow])))
  | djnz hrp | ld hrp =>
    have hne : a ≠ wr s.rp _ := fun e => ha ((mem_placeOf (resolve_r _ hrp)).mpr e)
    exact ⟨storage_put_ne s _ hne, fun _ _ => regRead_put_ne s _ hne⟩
  | @ldwx _ _ da sa hd =>
    obtain ⟨hne, hne1⟩ : a ≠ da ∧ a ≠ da + 1 := by simpa [writes, placeOf_of_next hd] using ha
    exact ⟨(storage_put_ne _ _ hne1).trans (storage_put_ne s _ hne),
      fun _ _ => (regRead_put_ne _ _ hne1).trans (regRead_put_ne s _ hne)⟩

/-! ### Program memory and the parameters are fixed -/

/-- No operation writes program memory or changes a parameter. -/
theorem progAndCfg_keptByOperations (s : State) : KeptByOperations fun u => u.prog = s.prog ∧ u.cfg = s.cfg where
  setPc _ h := h
  setDraws _ h := h
  putRp _ h := h
  putFlags _ _ h := h
  regPut _ _ h := by rwa [regPut_prog, regPut_cfg]

/-- An instruction that draws a free value is a DA (log 8). -/
theorem draws_of_exec {i : Instr} {s t : State} (h : exec i s = .next t) (hi : daForm i = none) :
    t.draws = s.draws := by
  cases completion_of_exec h with
  | brk | srp | jr | jp | test => rfl
  | add | and | djnz | ld => exact regPut_draws s _ _
  | ldwx => exact (regPut_draws _ _ _).trans (regPut_draws s _ _)
  | da hda => simp [hi] at hda

theorem daForm_eq_none {i : Instr} (h : ∀ db, i ≠ .da_R db) (h' : ∀ db, i ≠ .da_IR db) : daForm i = none := by
  cases i with
  | da_R db => exact absurd rfl (h db)
  | da_IR db => exact absurd rfl (h' db)
  | _ => rfl

/-- Settles O52: no operation touches program memory or the parameters, and only DA draws. -/
theorem programAndParametersFixed : Obligations.ProgramAndParametersFixed := by
  intro i s t h
  obtain ⟨hprog, hcfg⟩ := (progAndCfg_keptByOperations s).exec h ⟨rfl, rfl⟩
  exact ⟨hprog, hcfg, fun hR hIR => draws_of_exec h (daForm_eq_none hR hIR)⟩

/-! ### Program memory is not data -/

/-- The same outcome, with another program memory in the next state. -/
def withProg (m : List Host.Cell) (r : Result State) : Result State := andThen r fun t => .next (t.setProg m)

theorem andThen_assoc {α β γ : Type} (r : Result α) (k : α → Result β) (k' : β → Result γ) :
    andThen (andThen r k) k' = andThen r fun a => andThen (k a) k' := by cases r <;> rfl

/-- The change of program memory moves past a chain into its last link. -/
theorem withProg_andThen {α : Type} (m : List Host.Cell) (r : Result α) (k : α → Result State) :
    withProg m (andThen r k) = andThen r fun a => withProg m (k a) := andThen_assoc r k _

theorem andThen_withProg {α : Type} (m : List Host.Cell) (r : Result State) (k : State → Result α) :
    andThen (withProg m r) k = andThen r fun t => k (t.setProg m) := andThen_assoc r _ k

@[simp] theorem withProg_next (m : List Host.Cell) (t : State) : withProg m (.next t) = .next (t.setProg m) := rfl

section
variable (s : State) (m : List Host.Cell)

@[simp] theorem regRead_setProg (a : Addr12) : regRead (s.setProg m) a = regRead s a := rfl

@[simp] theorem flagsFor_setProg (r : Flags) : flagsFor (s.setProg m) r = flagsFor s r := rfl

@[simp] theorem resolve_setProg (l : Loc) : resolve (s.setProg m) l = resolve s l := by cases l <;> rfl

@[simp] theorem operands_setProg (dst : Loc) (src : Src) : operands (s.setProg m) dst src = operands s dst src := by
  simp only [operands, resolve_setProg, regRead_setProg, State.setProg_cfg]

theorem regPut_setProg (a : Addr12) (v : Byte) : regPut (s.setProg m) a v = (regPut s a v).setProg m := by
  unfold regPut
  rw [State.setProg_cfg]
  split <;> rfl

@[simp] theorem regWrite_setProg (a : Addr12) (v : Byte) :
    regWrite (s.setProg m) a v = withProg m (regWrite s a v) := by
  simp only [regWrite, State.setProg_cfg, regPut_setProg, withProg_andThen, withProg_next]

end

theorem storeResult_setProg (f : Byte → Byte → Byte) (fl : Byte → Byte → Flags → Flags) (d : Flags) (len : Nat)
    (dst : Loc) (src : Src) (s : State) (m : List Host.Cell) :
    storeResult f fl d len dst src (s.setProg m) = withProg m (storeResult f fl d len dst src s) := by
  simp only [storeResult, operands_setProg, regWrite_setProg, withProg_andThen, andThen_withProg]
  rfl

theorem addResult_setProg (len : Nat) (dst : Loc) (src : Src) (s : State) (m : List Host.Cell) :
    addResult len dst src (s.setProg m) = withProg m (addResult len dst src s) := storeResult_setProg ..

theorem andResult_setProg (len : Nat) (dst : Loc) (src : Src) (s : State) (m : List Host.Cell) :
    andResult len dst src (s.setProg m) = withProg m (andResult len dst src s) := by
  unfold andResult
  exact storeResult_setProg ..

theorem testResult_setProg (f : Byte → Byte → Byte) (len : Nat) (dst : Loc) (src : Src) (s : State)
    (m : List Host.Cell) : testResult f len dst src (s.setProg m) = withProg m (testResult f len dst src s) := by
  simp only [testResult, operands_setProg, withProg_andThen]
  rfl

theorem decimalAdjust_setProg (dst : Loc) (s : State) (m : List Host.Cell) :
    decimalAdjust dst (s.setProg m) = withProg m (decimalAdjust dst s) := by
  simp only [decimalAdjust, resolve_setProg, regRead_setProg, flagsFor_setProg, regWrite_setProg, State.setProg_cfg,
    withProg_andThen, andThen_withProg]
  rfl

/-- An instruction does not look at program memory: it takes its operands from the Register File, RP and the
flags. -/
theorem exec_setProg (i : Instr) (s : State) (m : List Host.Cell) :
    exec i (s.setProg m) = withProg m (exec i s) := by
  cases i with
  | srp => rfl
  | brk =>
    simp only [exec, execBrk, State.setProg_cfg]
    split <;> rfl
  | jr | jp =>
    simp only [exec, execJr, execJp, flagsFor_setProg, withProg_andThen]
    rfl
  | djnz | ld_r_IM | ldwx_ER_ER =>
    simp only [exec, execDjnz, execLd_r_IM, execLdwx_ER_ER, resolve_setProg, regRead_setProg, regWrite_setProg,
      State.setProg_cfg, withProg_andThen, andThen_withProg]
    rfl
  | add_r_r | add_r_Ir | add_R_R | add_R_IR | add_R_IM | add_IR_IM | addx_ER_ER | addx_ER_IM =>
    exact addResult_setProg ..
  | and_r_r | and_r_Ir | and_R_R | and_R_IR | and_R_IM | and_IR_IM => exact andResult_setProg ..
  | tcmx_ER_ER | tcmx_ER_IM | tmx_ER_ER | tmx_ER_IM => exact testResult_setProg ..
  | da_R | da_IR => exact decimalAdjust_setProg ..

/-- Settles O53: another program memory passes through `exec` untouched. -/
theorem programMemoryIsNotData : Obligations.ProgramMemoryIsNotData := by
  intro i s m
  refine ⟨fun t h => ?_, fun f h => ?_, fun q h => ?_⟩
  all_goals rw [exec_setProg, h]; rfl

end Sys2Proof.Machine
end

section
/-! Encoding and decoding are inverse (R82 to R93), and the length table knows the Op Codes the decoder knows (R81). -/

namespace Sys2Proof

/-! ### The operand bytes of 12-bit addresses -/

@[simp] theorem operandErEr_encodeErEr (e1 e2 : Addr12) (rest : List Byte) (mk : Addr12 → Addr12 → Instr) :
    operandErEr (encodeErEr e1 e2 ++ rest) mk = .instr (mk e1 e2) rest := by
  simp only [encodeErEr, operandErEr, List.cons_append, List.nil_append, loNibble_nibbles, hiNibble_nibbles]
  exact congrArg₂ (fun d s => Decoded.instr (mk d s) rest) (addr12_split_low e1) (addr12_split_high e2)

@[simp] theorem operandErIm_encodeErIm (e1 : Addr12) (im : Byte) (rest : List Byte) (mk : Addr12 → Byte → Instr) :
    operandErIm (encodeErIm e1 im ++ rest) mk = .instr (mk e1 im) rest := by
  simp only [encodeErIm, operandErIm, List.cons_append, List.nil_append, loNibble_nibbles, hiNibble_nibbles, if_true]
  exact congrArg (fun d => Decoded.instr (mk d im) rest) (addr12_split_low e1)

theorem encodeErEr_operand_bytes (o1 o2 o3 : Byte) :
    encodeErEr (loNibble o2 ++ o3) (o1 ++ hiNibble o2) = [o1, o2, o3] := by
  have hsrc : (o1 ++ hiNibble o2).extractLsb' 4 8 = o1 := upper_append _ _
  have hmid : nibbles ((o1 ++ hiNibble o2).extractLsb' 0 4) ((loNibble o2 ++ o3).extractLsb' 8 4) = o2 := by
    rw [lower_append o1, upper_append _ o3, nibbles_hi_lo]
  have hdst : (loNibble o2 ++ o3).extractLsb' 0 8 = o3 := lower_append _ _
  simp only [encodeErEr, hsrc, hmid, hdst]

theorem encodeErIm_operand_bytes (im : Byte) {o2 : Byte} (o3 : Byte) (h : hiNibble o2 = 0) :
    encodeErIm (loNibble o2 ++ o3) im = [im, o2, o3] := by
  have hmid : nibbles 0 ((loNibble o2 ++ o3).extractLsb' 8 4) = o2 := by
    rw [upper_append _ o3, ← h, nibbles_hi_lo]
  have hdst : (loNibble o2 ++ o3).extractLsb' 0 8 = o3 := lower_append _ _
  simp only [encodeErIm, hmid, hdst]

/-- The operand byte of two working registers. -/
theorem operand1_nibbles (h l : Nibble) (rest : List Byte) (mk : Nibble → Nibble → Instr) :
    operand1 (nibbles h l :: rest) (fun b => mk (hiNibble b) (loNibble b)) = .instr (mk h l) rest := by
  simp only [operand1, hiNibble_nibbles, loNibble_nibbles]

theorem byte_eq_of_toNat {b : Byte} {n : Nat} (h : b.toNat = n) : b = BitVec.ofNat 8 n := by
  rw [← h, BitVec.ofNat_toNat, BitVec.setWidth_eq]

/-- Byte 0 of a nibble-coded row is its high nibble beside the row's low nibble. -/
theorem byte_eq_nibbles_of_loNibble {b : Byte} {n : Nat} (h : (loNibble b).toNat = n) :
    b = nibbles (hiNibble b) (BitVec.ofNat 4 n) := by
  rw [← h, BitVec.ofNat_toNat, BitVec.setWidth_eq, nibbles_hi_lo]

/-! ### The round trip -/

/-- The bytes of an admitted instruction decode to it: byte 0 selects the arm, whose parser takes the operand bytes
apart. -/
theorem decode_encode {g : Bool} {i : Instr} (hg : i.fromGk = true → g = true) (rest : List Byte) :
    decode g (encode i ++ rest) = .instr i rest := by
  cases i with
  | brk | srp | add_R_R | add_R_IR | add_R_IM | add_IR_IM => rfl
  | and_R_R | and_R_IR | and_R_IM | and_IR_IM | da_R | da_IR => cases hg rfl; rfl
  | add_r_r | add_r_Ir => exact operand1_nibbles ..
  | and_r_r | and_r_Ir => cases hg rfl; exact operand1_nibbles ..
  | addx_ER_ER | tcmx_ER_ER | tmx_ER_ER | ldwx_ER_ER => exact operandErEr_encodeErEr ..
  | addx_ER_IM | tcmx_ER_IM | tmx_ER_IM => exact operandErIm_encodeErIm ..
  | djnz | jr | ld_r_IM => simp [encode, decode, operand1]
  | jp cc da16 => simp [encode, decode, operand2, ifAdmitted, hg rfl, addr16_split da16]

/-- Settles O1: with every row admitted, and for the printed rows without. -/
theorem decodeOfEncode : Obligations.DecodeOfEncode :=
  fun _ rest => ⟨decode_encode (fun _ => rfl) rest, fun hgk => decode_encode (by simp [hgk]) rest⟩

theorem encode_jp (cc : Cond) (h l : Byte) : encode (.jp cc (h ++ l)) = [nibbles cc.toBits 0xD, h, l] := by
  simp only [encode, upper_append h l, lower_append h l]

/-- Settles O2: in each arm of the Op Code map byte 0 is the arm's, and the operand bytes are those that the encoder
writes for the fields the parser has made of them. -/
theorem decodedBytesAreTheEncoding : Obligations.DecodedBytesAreTheEncoding := by
  intro g bs rest i
  fun_cases decode g bs
  all_goals
    simp only [operand1_eq_instr, operand2_eq_instr, operandErEr_eq_instr, operandErIm_eq_instr,
      ifAdmitted_eq_instr, Decoded.instr.injEq, reduceCtorEq, false_implies]
  case case2 | case3 | case4 => -- DJNZ, JR, LD
    rintro ⟨o1, rfl, rfl⟩
    simpa [encode, Instr.fromGk] using byte_eq_nibbles_of_loNibble ‹_›
  case case5 => -- JP
    rintro ⟨rfl, o1, o2, rfl, rfl⟩
    simpa [encode_jp] using byte_eq_nibbles_of_loNibble ‹_›
  all_goals obtain rfl := byte_eq_of_toNat ‹_›
  case case6 => -- no operand byte
    rintro ⟨rfl, rfl⟩
    exact ⟨rfl, nofun⟩
  case case7 | case8 | case9 => -- one operand byte
    rintro ⟨o1, rfl, rfl⟩
    simp [encode, Instr.fromGk]
  case case10 | case11 | case12 | case13 => -- two operand bytes
    rintro ⟨o1, o2, rfl, rfl⟩
    exact ⟨rfl, nofun⟩
  case case14 | case17 | case27 | case29 => -- two 12-bit addresses
    rintro ⟨o1, o2, o3, rfl, rfl⟩
    simp [encode, encodeErEr_operand_bytes, Instr.fromGk]
  case case15 | case28 | case30 => -- a 12-bit address and an immediate
    rintro ⟨o1, o2, o3, rfl, hreserved, rfl⟩
    simp [encode, encodeErIm_operand_bytes o1 o3 hreserved, Instr.fromGk]
  case case19 | case20 | case21 | case22 => -- DA and AND, one operand byte
    rintro ⟨rfl, o1, rfl, rfl⟩
    simp [encode]
  case case23 | case24 | case25 | case26 => -- AND, two operand bytes
    rintro ⟨rfl, o1, o2, rfl, rfl⟩
    exact ⟨rfl, fun _ => rfl⟩

/-! ### Which Op Codes are unknown -/

theorem operand1_ne_unknownOpCode (t : List Byte) (mk : Byte → Instr) (op : List Byte) :
    operand1 t mk ≠ .unknownOpCode op := by
  unfold operand1; split <;> nofun

theorem operand2_ne_unknownOpCode (t : List Byte) (mk : Byte → Byte → Instr) (op : List Byte) :
    operand2 t mk ≠ .unknownOpCode op := by
  unfold operand2; split <;> nofun

theorem operandErEr_ne_unknownOpCode (t : List Byte) (mk : Addr12 → Addr12 → Instr) (op : List Byte) :
    operandErEr t mk ≠ .unknownOpCode op := by
  unfold operandErEr; split <;> nofun

theorem operandErIm_ne_unknownOpCode (t : List Byte) (mk : Addr12 → Byte → Instr) (op : List Byte) :
    operandErIm t mk ≠ .unknownOpCode op := by
  unfold operandErIm
  split
  · split <;> nofun
  · nofun

theorem ifAdmitted_eq_unknownOpCode {g : Bool} {b0 : Byte} {d : Decoded} {op : List Byte}
    (hd : d ≠ .unknownOpCode op) : ifAdmitted g b0 d = .unknownOpCode op ↔ g = false ∧ op = [b0] := by
  cases g <;> simp [ifAdmitted, hd, @eq_comm _ op]

/-- From two bytes on, the length table and the Op Code map know the same Op Codes: a byte 0 of neither, a row that is
not admitted, and 1Fh before any byte but E8h are unknown to both. -/
theorem instrLength_eq_none {g : Bool} {bs : List Byte} (h : 2 ≤ bs.length) :
    instrLength g bs = none ↔ ∃ op, decode g bs = .unknownOpCode op := by
  revert h
  fun_cases decode g bs
  all_goals
    simp only [instrLength, operand1_ne_unknownOpCode, operand2_ne_unknownOpCode, operandErEr_ne_unknownOpCode,
      operandErIm_ne_unknownOpCode, ne_eq, not_false_eq_true, ifAdmitted_eq_unknownOpCode, *]
  all_goals simp_all

theorem length_bounds (i : Instr) : 1 ≤ i.length ∧ i.length ≤ 5 := by cases i <;> simp [Instr.length]

/-- Settles O3: the decoder reads the encoding back, and has taken as many bytes as the length table says. -/
theorem lengthTableAgreesWithFormats : Obligations.LengthTableAgreesWithFormats := by
  refine ⟨fun g i rest hg => ?_, fun g b0 b1 b2 b3 b4 => instrLength_eq_none (by simp)⟩
  obtain ⟨htable, -⟩ := instrLength_of_decode (decode_encode hg rest)
  rw [Machine.length_encode]
  exact ⟨htable, length_bounds i⟩

end Sys2Proof
end

section
/-! The operand bytes of 12-bit addresses, the bytes that a step refuses, operand addresses and cycle counts. -/

namespace Sys2Proof

/-! ### The formats of 12-bit addresses -/

/-- Settles O4: both directions are the definitions of the format, for each of the three Op Codes. -/
theorem extendedAddressFormat : Obligations.ExtendedAddressFormat :=
  ⟨fun _ _ _ _ => ⟨rfl, rfl, rfl⟩, fun _ _ => ⟨rfl, rfl, rfl⟩, by decide⟩

/-- Settles O5: both directions are the definitions of the format, for each of the three Op Codes. -/
theorem immediateAddressFormat : Obligations.ImmediateAddressFormat :=
  ⟨fun _ _ _ _ => ⟨rfl, rfl, rfl⟩, fun _ _ => ⟨rfl, rfl, rfl⟩, by decide⟩

/-! ### Bytes that a step refuses -/

theorem toNat_loNibble (b : Byte) : (loNibble b).toNat = b.toNat % 16 := by
  simp [loNibble, BitVec.extractLsb'_toNat]

/-- A byte 0 outside the table of R81 has no length. -/
theorem instrLength_singleton_eq_none {g : Bool} {b0 : Byte} (hlow : b0.toNat % 16 ∉ [0xA, 0xB, 0xC])
    (hb0 : b0.toNat ∉ [0, 1, 2, 3, 4, 5, 6, 7, 8, 9, 0x1F, 0x68, 0x69, 0x78, 0x79])
    (hgk : g = true → b0.toNat % 16 ≠ 0xD ∧ b0.toNat ∉ [0x40, 0x41, 0x52, 0x53, 0x54, 0x55, 0x56, 0x57]) :
    instrLength g [b0] = none := by
  rw [← toNat_loNibble] at hlow hgk
  simp only [instrLength]
  split
  case h_4 hjp => exact if_neg fun h => (hgk h).1 hjp
  case h_5 =>
    split
    case h_16 | h_17 | h_18 | h_19 | h_20 | h_21 | h_22 | h_23 => exact if_neg fun h => (hgk h).2 (by simp [*])
    case h_24 => rfl
    all_goals simp_all
  all_goals simp_all

end Sys2Proof

namespace Sys2Proof.Machine

theorem step_of_unknownOpCode {s : State} {op : List Byte} (he : s.cfg.endPc ≠ some s.pc)
    (hop : fetchOpCode s = .next op) (hn : instrLength s.cfg.admitGkRows op = none) :
    step s = .refused (.unknownOpCode op) := by
  simp only [step, fetch, he, hop, hn, if_false, andThen_next, andThen_refused]

/-- Settles O8: the fetch reads byte 0, or 1Fh and the byte after it, and the length table has no length for them. -/
theorem unknownOpCodesRefused : Obligations.UnknownOpCodesRefused := by
  intro s b0 b1 he
  refine ⟨fun hread hlow hb0 hgk => ?_, fun hread hb1 => ?_⟩
  · have hprefix : [b0] ≠ [0x1F] := by rintro ⟨⟩; simp at hb0
    have hop : fetchOpCode s = .next [b0] := by
      simpa [opCodeBytes] using fetchOpCode_of_memRead hread nofun hprefix
    exact step_of_unknownOpCode he hop (instrLength_singleton_eq_none hlow hb0 hgk)
  · have hop : fetchOpCode s = .next [0x1F, b1] := fetchOpCode_of_memRead hread nofun nofun
    exact step_of_unknownOpCode he hop (if_neg (by simpa using hb1))

/-- Bytes as many as the length table asks for are what the fetch decodes. -/
theorem fetch_of_instrLength {s : State} {bs : List Byte} (he : s.cfg.endPc ≠ some s.pc)
    (hread : memRead s s.pc bs.length = .next bs) (hn : instrLength s.cfg.admitGkRows bs = some bs.length) :
    fetch s = decodedOutcome bs (decode s.cfg.admitGkRows bs) := by
  have hop : fetchOpCode s = .next (opCodeBytes bs) :=
    fetchOpCode_of_memRead hread (by rintro rfl; cases hn) (by rintro rfl; cases hn)
  have hn' : instrLength s.cfg.admitGkRows (opCodeBytes bs) = some bs.length := by rw [instrLength_opCodeBytes, hn]
  simp only [fetch, he, hop, hn', hread, if_false, andThen_next]

theorem step_of_reservedOperandBits {s : State} {bs : List Byte} (he : s.cfg.endPc ≠ some s.pc)
    (hread : memRead s s.pc bs.length = .next bs) (hn : instrLength s.cfg.admitGkRows bs = some bs.length)
    (hdec : decode s.cfg.admitGkRows bs = .reservedOperandBits) : step s = .refused .reservedOperandBits := by
  rw [step, fetch_of_instrLength he hread hn, hdec, decodedOutcome, andThen_refused]

/-- Settles O9: the length table gives each of the three Op Codes four bytes, and the decoder refuses them. -/
theorem reservedOperandBitsRefused : Obligations.ReservedOperandBitsRefused := by
  intro s b0 im b2 b3 he hb0 hread hbits
  rcases hb0 with rfl | rfl | rfl <;>
    exact step_of_reservedOperandBits (bs := [_, im, b2, b3]) he hread rfl (if_neg hbits)

/-! ### Operand addresses -/

/-- An escaped operand stands in Page E. -/
theorem page_of_escape {e : Addr12} (h : e.extractLsb' 4 8 = 0xEE) : e.extractLsb' 8 4 = 0xE := by
  have hnibble : e.extractLsb' 8 4 = (e.extractLsb' 4 8).extractLsb' 4 4 := by
    ext k hk
    simp [BitVec.getElem_extractLsb', show 4 + k < 8 by omega, ← Nat.add_assoc]
  rw [hnibble, h]
  rfl

theorem rpOf_of_defined {s : State} (h : s.undef.rp = false) : rpOf s = .next s.rp := rpOf_eq_next.mpr ⟨h, rfl⟩

theorem resolve_ER_of_escape {s : State} {e : Addr12} (hrp : s.undef.rp = false) (h : e.extractLsb' 4 8 = 0xEE) :
    resolve s (.ER e) = .next (wr s.rp (e.extractLsb' 0 4)) :=
  eaER_eq_next.mpr (.inl ⟨h, s.rp, rpOf_of_defined hrp, rfl⟩)

theorem resolve_ER_of_page_ne {s : State} {e : Addr12} (h : e.extractLsb' 8 4 ≠ 0xE) : resolve s (.ER e) = .next e :=
  eaER_eq_next.mpr (.inr ⟨fun hescape => h (page_of_escape hescape), h, rfl⟩)

/-- Settles O17: the three branches of `eaER`. -/
theorem escapedOperandAddress : Obligations.EscapedOperandAddress := by
  intro s e
  refine ⟨resolve_ER_of_escape, fun hescape hpage => ?_, resolve_ER_of_page_ne⟩
  rw [resolve, eaER, if_neg hescape, if_pos hpage]

/-- Settles O18: the two branches of `eaR`. -/
theorem eightBitOperandAddress : Obligations.EightBitOperandAddress := by
  intro s b hrp
  rw [resolve_R b hrp, eaR]
  exact ⟨fun hescape => by rw [if_pos hescape], fun hescape => by rw [if_neg hescape]⟩

/-- Settles O19: with RP and the pointer read, what is left of the resolution is `eaInd`. -/
theorem indirectOperandAddress : Obligations.IndirectOperandAddress := by
  intro s n b p hrp
  constructor <;> intro hread <;> simp only [resolve, rpOf_of_defined hrp, hread, andThen_next, eaInd]

/-! ### Cycle counts -/

theorem fetch_cycles_eq_length {i : Instr} {c : Cycles} (h : cyclesOf i = some c) : c.fetch = i.length := by
  revert h
  fun_cases cyclesOf i <;> rintro ⟨⟩ <;> rfl

theorem execCycles_djnz_r0 (s : State) (ra : Byte) :
    execCycles (.djnz 0 ra) s = some (if regVal s (wr s.rp 0) - 1 = 0 then 3 else 4) := rfl

/-- Settles O60: the decremented value is zero exactly when the register holds 1. -/
theorem cycleCounts : Obligations.CycleCounts := by
  refine ⟨fun i c h => (fetch_cycles_eq_length h).trans (length_encode i).symm, fun s ra => ?_⟩
  rw [execCycles_djnz_r0]
  simp only [sub_eq_zero]
  exact ⟨fun h => by rw [if_pos h], fun h => by rw [if_neg h]⟩

end Sys2Proof.Machine
end

section
/-! The two refusals that the operand fields of an instruction cause by themselves (R98, R152): which operation can
answer one, and that an instruction does exactly when it is ill-formed. -/

namespace Sys2Proof.Machine

/-- Refused as EscapedPageE or LdwxOddAddress. -/
def RefusedByFields {α : Type} (r : Result α) : Prop := r = .refused .escapedPageE ∨ r = .refused .ldwxOddAddress

/-! ### Which operations can be refused so -/

@[simp] theorem not_refusedByFields_next {α : Type} (a : α) : ¬ RefusedByFields (.next a : Result α) := nofun

@[simp] theorem not_refusedByFields_fault {α : Type} (f : Fault) : ¬ RefusedByFields (.fault f : Result α) := nofun

/-- A chain is refused so exactly when a part of it is. -/
theorem refusedByFields_andThen {α β : Type} {r : Result α} {k : α → Result β} :
    RefusedByFields (andThen r k) ↔ RefusedByFields r ∨ ∃ a, r = .next a ∧ RefusedByFields (k a) := by
  cases r <;> simp [RefusedByFields, andThen]

@[simp] theorem not_refusedByFields_mustBeModelled (c : Config) (a : Addr12) :
    ¬ RefusedByFields (mustBeModelled c a) := by
  simp [RefusedByFields, mustBeModelled_eq_refused]

@[simp] theorem not_refusedByFields_mustNotBeFlags (c : Config) (a : Addr12) :
    ¬ RefusedByFields (mustNotBeFlags c a) := by
  unfold mustNotBeFlags; split <;> nofun

@[simp] theorem not_refusedByFields_regRead (s : State) (a : Addr12) : ¬ RefusedByFields (regRead s a) := by
  simp [RefusedByFields, regRead_eq_refused]

@[simp] theorem not_refusedByFields_regWrite (s : State) (a : Addr12) (v : Byte) :
    ¬ RefusedByFields (regWrite s a v) := by
  simp [RefusedByFields, regWrite_eq_refused]

@[simp] theorem not_refusedByFields_rpOf (s : State) : ¬ RefusedByFields (rpOf s) := by
  simp [RefusedByFields, rpOf_not_refused]

@[simp] theorem not_refusedByFields_flagsFor (s : State) (m : Flags) : ¬ RefusedByFields (flagsFor s m) := by
  simp [RefusedByFields, flagsFor_not_refused]

@[simp] theorem not_refusedByFields_eaInd (rp p : Byte) : ¬ RefusedByFields (eaInd rp p) := by
  unfold eaInd; split <;> nofun

@[simp] theorem not_refusedByFields_daRowFor (f : Flags) (v : Byte) : ¬ RefusedByFields (daRowFor f v) := by
  unfold daRowFor; split <;> nofun

@[simp] theorem refusedByFields_mustBeEven (da sa : Addr12) :
    RefusedByFields (mustBeEven da sa) ↔ da.getLsbD 0 = true ∨ sa.getLsbD 0 = true := by
  unfold mustBeEven; split <;> simp_all [RefusedByFields]

/-! ### Operands that can be named -/

/-- Of the register operands only the 12-bit ones can be refused by their field (R98). -/
def locNamable : Loc → Bool
  | .ER e => erNamable e
  | .r _ | .R _ | .Ir _ | .IR _ => true

/-- As `locNamable`; an immediate is never refused. -/
def srcNamable : Src → Bool
  | .loc l => locNamable l
  | .im _ => true

theorem erNamable_eq_false {e : Addr12} :
    erNamable e = false ↔ e.extractLsb' 4 8 ≠ 0xEE ∧ e.extractLsb' 8 4 = 0xE := by
  simp only [erNamable, Bool.or_eq_false_iff, bne_eq_false_iff_eq, beq_eq_false_iff_ne, and_comm]

theorem refusedByFields_eaER (s : State) (e : Addr12) :
    RefusedByFields (eaER (rpOf s) e) ↔ erNamable e = false := by
  rw [erNamable_eq_false]
  unfold eaER
  split
  case isTrue hescape =>
    simp only [refusedByFields_andThen, not_refusedByFields_rpOf, not_refusedByFields_next, hescape, and_false,
      exists_const, or_self, ne_eq, not_true_eq_false, false_and]
  case isFalse hescape =>
    split
    case isTrue hpage => simp only [RefusedByFields, true_or, hescape, hpage, ne_eq, not_false_eq_true, and_self]
    case isFalse hpage => simp only [not_refusedByFields_next, hpage, and_false]

@[simp] theorem refusedByFields_resolve (s : State) (l : Loc) :
    RefusedByFields (resolve s l) ↔ locNamable l = false := by
  cases l with
  | ER e => exact refusedByFields_eaER s e
  | r | R | Ir | IR => simp [resolve, refusedByFields_andThen, locNamable]

theorem locNamable_of_resolve {s : State} {l : Loc} {a : Addr12} (h : resolve s l = .next a) :
    locNamable l = true := by
  by_contra hn
  have := (refusedByFields_resolve s l).mpr (by simpa using hn)
  simp [h] at this

/-- With RP known a 12-bit operand that can be named has an address. -/
theorem resolve_ER_of_namable {s : State} {e : Addr12} (hrp : s.undef.rp = false) (h : erNamable e = true) :
    ∃ a, resolve s (.ER e) = .next a := by
  by_cases hescape : e.extractLsb' 4 8 = 0xEE
  · exact ⟨_, resolve_ER_of_escape hrp hescape⟩
  · refine ⟨e, resolve_ER_of_page_ne fun hpage => ?_⟩
    exact Bool.noConfusion (h.symm.trans (erNamable_eq_false.mpr ⟨hescape, hpage⟩))

theorem wr_bit_zero (rp : Byte) (n : Nibble) : (wr rp n).getLsbD 0 = n.getLsbD 0 := by
  simp only [wr, BitVec.getLsbD_append, Nat.zero_lt_succ, if_true]

/-- Bit 0 of the address is bit 0 of the operand, escaped or not. -/
theorem resolve_ER_bit_zero {s : State} {e a : Addr12} (h : resolve s (.ER e) = .next a) :
    a.getLsbD 0 = e.getLsbD 0 := by
  rcases eaER_eq_next.mp h with ⟨-, p, -, rfl⟩ | ⟨-, -, rfl⟩
  · rw [wr_bit_zero, BitVec.getLsbD_extractLsb']
    rfl
  · rfl

/-! ### Instructions -/

theorem refusedByFields_operands (s : State) (dst : Loc) (src : Src) :
    RefusedByFields (operands s dst src) ↔
      locNamable dst = false ∨ ∃ da, resolve s dst = .next da ∧ srcNamable src = false := by
  cases src <;> simp [operands, refusedByFields_andThen, srcNamable]

theorem operandForm_cases {i : Instr} {p : Loc × Src} (h : operandForm i = some p) :
    addForm i = some p ∨ andForm i = some p ∨ testForm i = some p := by
  simp only [operandForm, Option.or_eq_some_iff] at h
  tauto

theorem refusedByFields_of_operandForm {i : Instr} {dst : Loc} {src : Src} (s : State)
    (h : operandForm i = some (dst, src)) : RefusedByFields (exec i s) ↔ RefusedByFields (operands s dst src) := by
  rcases operandForm_cases h with h | h | h
  · simp [exec_of_addForm h, addResult, storeResult, refusedByFields_andThen]
  · simp [exec_of_andForm h, andResult, storeResult, refusedByFields_andThen]
  · obtain ⟨f, hf⟩ := exec_of_testForm (s := s) h
    simp [hf, testResult, refusedByFields_andThen]

theorem wellFormed_of_operandForm {i : Instr} {dst : Loc} {src : Src} (h : operandForm i = some (dst, src)) :
    i.wellFormed = (locNamable dst && srcNamable src) := by
  cases i <;> simp_all [operandForm, addForm, andForm, testForm] <;>
    (obtain ⟨rfl, rfl⟩ := h; simp [Instr.wellFormed, locNamable, srcNamable])

theorem refusedByFields_ldwx (e1 e2 : Addr12) (s : State) :
    RefusedByFields (execLdwx_ER_ER e1 e2 s) ↔
      erNamable e1 = false ∨ ∃ da, resolve s (.ER e1) = .next da ∧
        (erNamable e2 = false ∨ ∃ sa, resolve s (.ER e2) = .next sa ∧
          (da.getLsbD 0 = true ∨ sa.getLsbD 0 = true)) := by
  simp [execLdwx_ER_ER, refusedByFields_andThen, locNamable]

theorem wellFormed_ldwx {e1 e2 : Addr12} :
    (Instr.ldwx_ER_ER e1 e2).wellFormed = true ↔
      erNamable e1 = true ∧ erNamable e2 = true ∧ e1.getLsbD 0 = false ∧ e2.getLsbD 0 = false := by
  simp [Instr.wellFormed, pairEven, and_assoc]

/-- An instruction refused by its operand fields is ill-formed. -/
theorem illFormed_of_refusedByFields {i : Instr} {s : State} (h : RefusedByFields (exec i s)) :
    i.wellFormed = false := by
  have ofForm {dst : Loc} {src : Src} (hi : operandForm i = some (dst, src)) : i.wellFormed = false := by
    rw [refusedByFields_of_operandForm s hi, refusedByFields_operands] at h
    rw [wellFormed_of_operandForm hi, Bool.and_eq_false_iff]
    exact h.imp_right fun ⟨_, _, hsrc⟩ => hsrc
  cases i with
  | brk => simp only [exec, execBrk] at h; split at h <;> simp at h
  | srp => simp [exec, execSrp] at h
  | jr => simp [exec, execJr, refusedByFields_andThen] at h
  | jp => simp [exec, execJp, refusedByFields_andThen] at h
  | djnz => simp [exec, execDjnz, refusedByFields_andThen, locNamable] at h
  | ld_r_IM => simp [exec, execLd_r_IM, refusedByFields_andThen, locNamable] at h
  | da_R => simp [exec, execDa_R, decimalAdjust, refusedByFields_andThen, locNamable] at h
  | da_IR => simp [exec, execDa_IR, decimalAdjust, refusedByFields_andThen, locNamable] at h
  | ldwx_ER_ER e1 e2 =>
    rw [← Bool.not_eq_true, wellFormed_ldwx]
    rintro ⟨hn1, hn2, hb1, hb2⟩
    rcases (refusedByFields_ldwx e1 e2 s).mp h with hd | ⟨da, hda, hs | ⟨sa, hsa, hodd⟩⟩
    · simp [hn1] at hd
    · simp [hn2] at hs
    · rw [resolve_ER_bit_zero hda, resolve_ER_bit_zero hsa, hb1, hb2] at hodd
      simp at hodd
  | add_r_r | add_r_Ir | add_R_R | add_R_IR | add_R_IM | add_IR_IM | addx_ER_ER | addx_ER_IM
  | and_r_r | and_r_Ir | and_R_R | and_R_IR | and_R_IM | and_IR_IM
  | tcmx_ER_ER | tcmx_ER_IM | tmx_ER_ER | tmx_ER_IM => exact ofForm rfl

/-- With RP known an ill-formed instruction of an operand form with a 12-bit destination is refused by its operand
fields. -/
theorem refusedByFields_of_illFormed_form {i : Instr} {s : State} {e1 : Addr12} {src : Src}
    (hi : operandForm i = some (.ER e1, src)) (hrp : s.undef.rp = false) (h : i.wellFormed = false) :
    RefusedByFields (exec i s) := by
  rw [refusedByFields_of_operandForm s hi, refusedByFields_operands]
  rw [wellFormed_of_operandForm hi] at h
  cases hd : locNamable (.ER e1) with
  | false => exact .inl rfl
  | true =>
    obtain ⟨da, hda⟩ := resolve_ER_of_namable hrp hd
    rw [hd, Bool.true_and] at h
    exact .inr ⟨da, hda, h⟩

theorem refusedByFields_of_illFormed_ldwx {s : State} {e1 e2 : Addr12} (hrp : s.undef.rp = false)
    (h : (Instr.ldwx_ER_ER e1 e2).wellFormed = false) : RefusedByFields (execLdwx_ER_ER e1 e2 s) := by
  rw [refusedByFields_ldwx]
  cases hn1 : erNamable e1 with
  | false => exact .inl rfl
  | true =>
    obtain ⟨da, hda⟩ := resolve_ER_of_namable hrp hn1
    cases hn2 : erNamable e2 with
    | false => exact .inr ⟨da, hda, .inl rfl⟩
    | true =>
      obtain ⟨sa, hsa⟩ := resolve_ER_of_namable hrp hn2
      refine .inr ⟨da, hda, .inr ⟨sa, hsa, ?_⟩⟩
      rw [resolve_ER_bit_zero hda, resolve_ER_bit_zero hsa]
      by_contra heven
      rw [not_or, Bool.not_eq_true, Bool.not_eq_true] at heven
      exact Bool.noConfusion (h.symm.trans (wellFormed_ldwx.mpr ⟨hn1, hn2, heven⟩))

/-- With RP known an ill-formed instruction is refused by its operand fields. -/
theorem refusedByFields_of_illFormed {i : Instr} {s : State} (hrp : s.undef.rp = false) (h : i.wellFormed = false) :
    RefusedByFields (exec i s) := by
  cases i with
  | addx_ER_ER | addx_ER_IM | tcmx_ER_ER | tcmx_ER_IM | tmx_ER_ER | tmx_ER_IM =>
    exact refusedByFields_of_illFormed_form rfl hrp h
  | ldwx_ER_ER => exact refusedByFields_of_illFormed_ldwx hrp h
  | _ => cases h

theorem wellFormed_of_daForm {i : Instr} {dst : Loc} (h : daForm i = some dst) : i.wellFormed = true := by
  cases i with
  | da_R | da_IR => rfl
  | _ => cases h

theorem wellFormed_of_operands {i : Instr} {s : State} {dst : Loc} {src : Src} {o : Operands}
    (hi : operandForm i = some (dst, src)) (ho : operands s dst src = .next o) : i.wellFormed = true := by
  obtain ⟨hd, -, -, -, hsrc⟩ := operands_eq_next.mp ho
  rw [wellFormed_of_operandForm hi, locNamable_of_resolve hd, Bool.true_and]
  cases src with
  | im v => rfl
  | loc l =>
    obtain ⟨sa, hs, -⟩ := hsrc
    exact locNamable_of_resolve hs

/-- An instruction that completes is well-formed. -/
theorem wellFormed_of_exec {i : Instr} {s t : State} (h : exec i s = .next t) : i.wellFormed = true := by
  cases completion_of_exec h with
  | brk | srp | djnz | jr | jp | ld => rfl
  | add hi ho => exact wellFormed_of_operands (operandForm_of_addForm hi) ho
  | and hi ho => exact wellFormed_of_operands (operandForm_of_andForm hi) ho
  | test hi ho => exact wellFormed_of_operands (operandForm_of_testForm hi) ho
  | da hi => exact wellFormed_of_daForm hi
  | ldwx hd hs hde hse =>
    rw [resolve_ER_bit_zero hd] at hde
    rw [resolve_ER_bit_zero hs] at hse
    exact wellFormed_ldwx.mpr ⟨locNamable_of_resolve hd, locNamable_of_resolve hs, hde, hse⟩

/-- Settles O49: refused by its operand fields exactly when ill-formed, where RP is known; complete only when
well-formed, in every state. -/
theorem illFormedRefusedEverywhere : Obligations.IllFormedRefusedEverywhere :=
  fun _ _ => ⟨refusedByFields_of_illFormed, illFormed_of_refusedByFields,
    fun hill _ h => Bool.noConfusion ((wellFormed_of_exec h).symm.trans hill)⟩

end Sys2Proof.Machine
end

section
/-! Addition (R110, R111): its flags in integer arithmetic, and the ADD and ADDX forms, which complete wherever their
operands can be read. -/

namespace Sys2Proof.Machine

/-! ### The result and the flags -/

theorem bitSeven_iff (b : Byte) : b.getLsbD 7 = true ↔ 128 ≤ b.toNat := by
  change b.msb = true ↔ _
  rw [BitVec.msb_eq_decide]
  exact decide_eq_true_iff

theorem toNat_highNibble (b : Byte) : (b.extractLsb' 4 4).toNat = b.toNat / 16 := by
  rw [BitVec.extractLsb'_toNat, Nat.shiftRight_eq_div_pow]
  have := b.isLt
  omega

theorem toNat_lowNibble (b : Byte) : (b.extractLsb' 0 4).toNat = b.toNat % 16 := toNat_loNibble b

theorem carryOut_eq_uaddOverflow (a b : Byte) : carryOut a b = a.uaddOverflow b := by
  rw [BitVec.uaddOverflow_eq, BitVec.msb_eq_getLsbD_last]
  rfl

theorem halfCarry_eq_uaddOverflow (a b : Byte) :
    halfCarry a b = (a.extractLsb' 0 4).uaddOverflow (b.extractLsb' 0 4) := by
  rw [BitVec.uaddOverflow_eq, BitVec.msb_eq_getLsbD_last]
  rfl

theorem overflow_eq_saddOverflow (a b : Byte) : overflow a b (a + b) = a.saddOverflow b := by
  simp only [BitVec.saddOverflow_eq, BitVec.msb_eq_getLsbD_last]
  rfl

theorem carryOut_iff (a b : Byte) : carryOut a b = true ↔ 256 ≤ a.toNat + b.toNat := by
  rw [carryOut_eq_uaddOverflow]
  exact decide_eq_true_iff

theorem halfCarry_iff (a b : Byte) : halfCarry a b = true ↔ 16 ≤ a.toNat % 16 + b.toNat % 16 := by
  rw [halfCarry_eq_uaddOverflow, ← toNat_lowNibble a, ← toNat_lowNibble b]
  exact decide_eq_true_iff

theorem overflow_iff (a b : Byte) :
    overflow a b (a + b) = true ↔ a.toInt + b.toInt < -128 ∨ 127 < a.toInt + b.toInt := by
  rw [overflow_eq_saddOverflow]
  simp only [BitVec.saddOverflow, Bool.or_eq_true, decide_eq_true_eq]
  omega

/-- Settles O27: each flag is a comparison of the sum of its operands. -/
theorem addFlagsAreIntegerArithmetic : Obligations.AddFlagsAreIntegerArithmetic := by
  intro a b f
  have hsum : (a + b).toNat = (a.toNat + b.toNat) % 256 := BitVec.toNat_add a b
  rw [← hsum]
  exact ⟨rfl, carryOut_iff a b, beq_iff_eq.trans BitVec.toNat_inj.symm, bitSeven_iff (a + b), overflow_iff a b,
    halfCarry_iff a b, rfl, rfl, rfl⟩

theorem lowByte_setWidth (a : Byte) : (a.setWidth 9).extractLsb' 0 8 = a := by
  rw [← BitVec.setWidth_eq_extractLsb' (by decide), BitVec.setWidth_setWidth_of_le _ (by decide), BitVec.setWidth_eq]

/-- Settles O26: the low eight bits of the 9-bit sum are the sum modulo 256. -/
theorem addEightAsWritten : Obligations.AddEightAsWritten := by
  refine ⟨fun a b f => ?_, fun f => ⟨rfl, rfl⟩⟩
  have hsum : a + b = (a.zeroExtend 9 + b.zeroExtend 9).extractLsb' 0 8 := by
    rw [BitVec.extractLsb'_add (by decide), lowByte_setWidth, lowByte_setWidth]
  dsimp only
  rw [← hsum]
  simp [addFlags, carryOut, halfCarry, overflow, beq_eq_decide, bne]

/-! ### The forms -/

/-- At a result place the result is read back: the flags show at the Flags location only. -/
theorem regRead_putFlags_regPut {s : State} {da : Addr12} (v : Byte) (f d : Flags) (h : resultPlace s da = true) :
    regRead (putFlags (regPut s da v) f d) da = .next v := by
  obtain ⟨hr, hc⟩ := resultPlace_eq_true.mp h
  rw [regRead_putFlags _ _ _ (by rwa [regPut_cfg])]
  exact regRead_put_self v (readable_eq_true.mp hr).1

section
variable {i : Instr} {s : State} {dst : Loc} {da : Addr12}

theorem operands_im {v : Byte} (hd : resolve s dst = .next da) (hp : resultPlace s da = true) :
    operands s dst (.im v) = .next ⟨da, regVal s da, v⟩ := by
  obtain ⟨hr, hc⟩ := resultPlace_eq_true.mp hp
  exact operands_eq_next.mpr ⟨hd, hr, hc, rfl, rfl⟩

theorem operands_loc {l : Loc} {sa : Addr12} (hd : resolve s dst = .next da) (hp : resultPlace s da = true)
    (hs : resolve s l = .next sa) (hr : readable s sa = true) :
    operands s dst (.loc l) = .next ⟨da, regVal s da, regVal s sa⟩ := by
  obtain ⟨hrd, hc⟩ := resultPlace_eq_true.mp hp
  exact operands_eq_next.mpr ⟨hd, hrd, hc, rfl, sa, hs, hr, rfl⟩

theorem exec_add_of_operands {src : Src} {o : Operands} (hi : addForm i = some (dst, src))
    (ho : operands s dst src = .next o) :
    exec i s = .next
      (advance (putFlags (regPut s o.da (o.a + o.b)) (addFlags o.a o.b s.flags) addDefines) i.length) := by
  rw [exec_of_addForm hi]
  exact addResult_eq_next.mpr ⟨o, ho, rfl⟩

theorem completesWith_add {src : Src} {o : Operands} (hi : addForm i = some (dst, src))
    (ho : operands s dst src = .next o) :
    CompletesWith i s o.da (o.a + o.b) (addFlags o.a o.b s.flags) := by
  obtain ⟨-, hr, hc, -⟩ := operands_eq_next.mp ho
  exact ⟨_, exec_add_of_operands hi ho, regRead_putFlags_regPut _ _ _ (resultPlace_eq_true.mpr ⟨hr, hc⟩), rfl,
    by simp⟩

theorem completesWith_add_im {v : Byte} (hi : addForm i = some (dst, .im v)) (hd : resolve s dst = .next da)
    (hp : resultPlace s da = true) : CompletesWith i s da (regVal s da + v) (addFlags (regVal s da) v s.flags) :=
  completesWith_add hi (operands_im hd hp)

theorem completesWith_add_loc {l : Loc} {sa : Addr12} (hi : addForm i = some (dst, .loc l))
    (hd : resolve s dst = .next da) (hp : resultPlace s da = true) (hs : resolve s l = .next sa)
    (hr : readable s sa = true) :
    CompletesWith i s da (regVal s da + regVal s sa) (addFlags (regVal s da) (regVal s sa) s.flags) :=
  completesWith_add hi (operands_loc hd hp hs hr)

end

/-- Settles O29: the destination and both sources resolve through RP. -/
theorem addWorkingRegisterForms : Obligations.AddWorkingRegisterForms := by
  intro s d r da x y hrp hp hr
  exact ⟨completesWith_add_loc rfl (resolve_r d hrp) hp (resolve_r r hrp) hr, fun sa hi hs =>
    completesWith_add_loc rfl (resolve_r d hrp) hp (resolve_Ir_eq_next.mpr ⟨hrp, hr, hi⟩) hs⟩

/-- Settles O30: as for the working registers, with 8-bit addresses. -/
theorem addRegisterAddressForms : Obligations.AddRegisterAddressForms := by
  intro s db sb da x y hrp hp hr
  exact ⟨completesWith_add_loc rfl (resolve_R db hrp) hp (resolve_R sb hrp) hr, fun sa hi hs =>
    completesWith_add_loc rfl (resolve_R db hrp) hp (resolve_IR_eq_next.mpr ⟨hrp, hr, hi⟩) hs⟩

/-- Settles O31: the destination is direct, or what its pointer names. -/
theorem addImmediateForms : Obligations.AddImmediateForms :=
  ⟨fun _ db _ hrp hp => completesWith_add_im rfl (resolve_R db hrp) hp, fun _ _ _ _ hrp hr hi hp =>
    completesWith_add_im rfl (resolve_IR_eq_next.mpr ⟨hrp, hr, hi⟩) hp⟩

/-- Settles O32: the operands resolve by hypothesis. -/
theorem addxForms : Obligations.AddxForms := fun _ _ _ hd hp =>
  ⟨fun _ => completesWith_add_im rfl hd hp, fun _ _ hs hr => completesWith_add_loc rfl hd hp hs hr⟩

end Sys2Proof.Machine
end

section
/-! Decimal adjust (R122): its table, the completion of both forms, and where they stop. -/

namespace Sys2Proof.Machine

/-! ### The table -/

theorem daRowMatches_iff {f : Flags} {v : Byte} {r : DaRow} :
    daRowMatches f v r = true ↔ (r.d = f.d ∧ r.c = f.c ∧ r.h = f.h) ∧
      (r.hiFirst ≤ v.toNat / 16 ∧ v.toNat / 16 ≤ r.hiLast) ∧ r.loFirst ≤ v.toNat % 16 ∧ v.toNat % 16 ≤ r.loLast := by
  simp only [daRowMatches, toNat_highNibble, toNat_lowNibble, Bool.and_eq_true, beq_iff_eq, decide_eq_true_eq,
    and_assoc]

/-- Some input matches both rows: the same flags, and digit ranges that meet. -/
def daRowsMeet (r r' : DaRow) : Prop :=
  (r.d = r'.d ∧ r.c = r'.c ∧ r.h = r'.h) ∧ (r.hiFirst ≤ r'.hiLast ∧ r'.hiFirst ≤ r.hiLast) ∧
    r.loFirst ≤ r'.loLast ∧ r'.loFirst ≤ r.loLast

theorem daRowsMeet_of_matches {f : Flags} {v : Byte} {r r' : DaRow} (h : daRowMatches f v r = true)
    (h' : daRowMatches f v r' = true) : daRowsMeet r r' := by
  obtain ⟨⟨hd, hc, hh⟩, ⟨hhi, hhi'⟩, hlo, hlo'⟩ := daRowMatches_iff.mp h
  obtain ⟨⟨hd', hc', hh'⟩, ⟨hhi₂, hhi₂'⟩, hlo₂, hlo₂'⟩ := daRowMatches_iff.mp h'
  exact ⟨⟨hd.trans hd'.symm, hc.trans hc'.symm, hh.trans hh'.symm⟩, ⟨hhi.trans hhi₂', hhi₂.trans hhi'⟩,
    hlo.trans hlo₂', hlo₂.trans hlo'⟩

/-- No input matches two rows of the table. -/
theorem daTable_disjoint : ∀ r ∈ daTable, ∀ r' ∈ daTable, daRowsMeet r r' → r = r' := by
  unfold daRowsMeet
  decide

theorem daRowOf_of_mem {f : Flags} {v : Byte} {row : DaRow} (hrow : row ∈ daTable)
    (h : daRowMatches f v row = true) : daRowOf f v = some row := by
  obtain ⟨r, hr⟩ := Option.isSome_iff_exists.mp (List.find?_isSome.mpr ⟨row, hrow, h⟩)
  have hsame : r = row :=
    daTable_disjoint r (List.mem_of_find?_eq_some hr) row hrow (daRowsMeet_of_matches (List.find?_some hr) h)
  rw [daRowOf, hr, hsame]

theorem daRowFor_of_no_match {f : Flags} {v : Byte} (h : ∀ row ∈ daTable, daRowMatches f v row = false) :
    daRowFor f v = .refused .daInputNotBcd := by
  have hnone : daRowOf f v = none := List.find?_eq_none.mpr fun row hrow => by simp [h row hrow]
  rw [daRowFor, hnone]

/-! ### Completion -/

theorem flagsMeet_daReads {u : Flags} :
    flagsMeet u daReads = false ↔ u.d = false ∧ u.c = false ∧ u.h = false := by
  simp [flagsMeet, daReads, and_assoc, and_left_comm]

/-- DA completes with what R122 says of the row: the number added at the operand, the row's C, Z and S of the result, V
of which nothing is known, the other flags as they were. -/
def AdjustsBy (i : Instr) (s : State) (da : Addr12) (row : DaRow) : Prop :=
  ∃ (t : State) (v : Bool), exec i s = .next t ∧ regRead t da = .next (regVal s da + row.add) ∧ t.pc = s.pc + 2 ∧
    t.flags = { s.flags with c := row.carry, z := decide (regVal s da + row.add = 0),
                             s := (regVal s da + row.add).getLsbD 7, v := v }

theorem adjustsBy_of_matches {i : Instr} {s : State} {dst : Loc} {da : Addr12} {row : DaRow}
    (hi : daForm i = some dst) (hd : resolve s dst = .next da) (hp : resultPlace s da = true)
    (hf : flagsMeet s.undef.flags daReads = false) (hrow : row ∈ daTable)
    (hm : daRowMatches s.flags (regVal s da) row = true) : AdjustsBy i s da row := by
  obtain ⟨hr, hc⟩ := resultPlace_eq_true.mp hp
  have hexec := decimalAdjust_eq_next.mpr ⟨da, row, hd, hr, hc, hf, daRowOf_of_mem hrow hm, rfl⟩
  rw [← exec_of_daForm hi] at hexec
  exact ⟨_, Config.freeV s.draws, hexec, regRead_putFlags_regPut _ _ _ hp, by simp, by simp [daFlags, beq_eq_decide]⟩

/-- Settles O43: the thirteen rows are those of `daTable`, and the input's row is the one given. -/
theorem daAdjustsByItsRow : Obligations.DaAdjustsByItsRow := by
  intro s i dst da row hi hd hp hud huc huh hrow hfd hfc hfh hhi hhi' hlo hlo'
  exact adjustsBy_of_matches hi hd hp (flagsMeet_daReads.mpr ⟨hud, huc, huh⟩) hrow
    (daRowMatches_iff.mpr ⟨⟨hfd.symm, hfc.symm, hfh.symm⟩, ⟨hhi, hhi'⟩, hlo, hlo'⟩)

/-! ### Stops -/

section
variable {dst : Loc} {s : State} {da : Addr12}

theorem decimalAdjust_of_unmodelled (hd : resolve s dst = .next da) (h : modelled s.cfg da = false) :
    decimalAdjust dst s = .refused (.unmodelledRegister da) := by
  rw [decimalAdjust, hd, andThen_next, mustBeModelled_eq_refused.mpr ⟨h, rfl⟩, andThen_refused]

/-- At a modelled location the next check is that it is not Flags. -/
theorem decimalAdjust_of_flags (hd : resolve s dst = .next da) (h : regClass s.cfg da = .flags) :
    decimalAdjust dst s = .refused .flagsAsDestination := by
  have hm : mustBeModelled s.cfg da = .next () := mustBeModelled_eq_next.mpr (by simp [modelled, h])
  have hf : mustNotBeFlags s.cfg da = .refused .flagsAsDestination := if_pos h
  rw [decimalAdjust, hd, andThen_next, hm, andThen_next, hf, andThen_refused]

theorem decimalAdjust_of_unwritten (hd : resolve s dst = .next da) (hm : modelled s.cfg da = true)
    (hc : regClass s.cfg da ≠ .flags) (h : unwritten s da = true) :
    decimalAdjust dst s = .fault (.unwrittenRegister da) := by
  have hm' : mustBeModelled s.cfg da = .next () := mustBeModelled_eq_next.mpr hm
  have hf : mustNotBeFlags s.cfg da = .next () := mustNotBeFlags_eq_next.mpr hc
  rw [decimalAdjust, hd, andThen_next, hm', andThen_next, hf, andThen_next, regRead_eq_fault.mpr ⟨hm, h, rfl⟩,
    andThen_fault]

/-- A result place passes both checks of a destination, and its value is read. -/
theorem andThen_checks_of_resultPlace {α : Type} (k : Byte → Result α) (hp : resultPlace s da = true) :
    (andThen (mustBeModelled s.cfg da) fun _ => andThen (mustNotBeFlags s.cfg da) fun _ => andThen (regRead s da) k) =
      k (regVal s da) := by
  obtain ⟨hr, hc⟩ := resultPlace_eq_true.mp hp
  have hm : mustBeModelled s.cfg da = .next () := mustBeModelled_eq_next.mpr (readable_eq_true.mp hr).1
  have hf : mustNotBeFlags s.cfg da = .next () := mustNotBeFlags_eq_next.mpr hc
  rw [hm, andThen_next, hf, andThen_next, regRead_of_readable hr, andThen_next]

theorem decimalAdjust_of_undefined_flags (hd : resolve s dst = .next da) (hp : resultPlace s da = true)
    (h : flagsMeet s.undef.flags daReads = true) :
    decimalAdjust dst s = .fault (.unwrittenRegister s.cfg.flagsAddr) := by
  rw [decimalAdjust, hd, andThen_next, andThen_checks_of_resultPlace _ hp, flagsFor_eq_fault.mpr ⟨h, rfl⟩,
    andThen_fault]

theorem decimalAdjust_of_no_row (hd : resolve s dst = .next da) (hp : resultPlace s da = true)
    (hf : flagsMeet s.undef.flags daReads = false)
    (h : ∀ row ∈ daTable, daRowMatches s.flags (regVal s da) row = false) :
    decimalAdjust dst s = .refused .daInputNotBcd := by
  rw [decimalAdjust, hd, andThen_next, andThen_checks_of_resultPlace _ hp, flagsFor_eq_next.mpr ⟨hf, rfl⟩,
    andThen_next, daRowFor_of_no_match h, andThen_refused]

end

theorem resolve_IR_of_unmodelled {s : State} {b : Byte} (hrp : s.undef.rp = false)
    (h : modelled s.cfg (eaR s.rp b) = false) :
    resolve s (.IR b) = .refused (.unmodelledRegister (eaR s.rp b)) := by
  rw [resolve, rpOf_of_defined hrp, andThen_next, regRead_eq_refused.mpr ⟨h, rfl⟩, andThen_refused]

theorem resolve_IR_of_escape {s : State} {b : Byte} (hrp : s.undef.rp = false)
    (hr : readable s (eaR s.rp b) = true) (h : (regVal s (eaR s.rp b)).extractLsb' 4 4 = 0xE) :
    resolve s (.IR b) = .refused .indirectEscape := by
  rw [resolve, rpOf_of_defined hrp, andThen_next, regRead_of_readable hr, andThen_next, eaInd, if_pos h]

/-- Settles O47: each stop is the first part of `decimalAdjust` that does not answer a value. -/
theorem daRefusals : Obligations.DaRefusals := by
  have unresolved {s : State} {i : Instr} {dst : Loc} {q : Refusal} (hi : daForm i = some dst)
      (h : resolve s dst = .refused q) : exec i s = .refused q := by
    rw [exec_of_daForm hi, decimalAdjust, h, andThen_refused]
  refine ⟨fun s i dst hi => ⟨fun q h => unresolved hi h, fun f h => ?_⟩,
    fun s db hrp => ⟨fun hm => ?_, fun hr he => ?_⟩, fun s i dst da hi hd => ?_⟩
  · rw [exec_of_daForm hi, decimalAdjust, h, andThen_fault]
  · exact unresolved rfl (resolve_IR_of_unmodelled hrp hm)
  · exact unresolved rfl (resolve_IR_of_escape hrp hr he)
  · rw [exec_of_daForm hi]
    refine ⟨decimalAdjust_of_unmodelled hd, decimalAdjust_of_flags hd, decimalAdjust_of_unwritten hd,
      fun hp hu => decimalAdjust_of_undefined_flags hd hp ?_,
      fun hp hud huc huh => decimalAdjust_of_no_row hd hp (flagsMeet_daReads.mpr ⟨hud, huc, huh⟩)⟩
    rw [← Bool.not_eq_false, flagsMeet_daReads]
    rintro ⟨hud, huc, huh⟩
    simp [hud, huc, huh] at hu

end Sys2Proof.Machine
end

section
/-! What DA is for (R33): after the addition or subtraction of two packed decimal bytes it leaves the decimal result.
The sums or differences `hi` and `lo` of the digits, carries not yet made and borrows not yet taken, decide its row:
the operand is `16 * hi + lo` modulo 256, the result has the digits of `10 * hi + lo` modulo 100. -/

namespace Sys2Proof.Machine

/-! ### Packed decimal bytes -/

theorem isBcd_iff {b : Byte} : isBcd b = true ↔ b.toNat / 16 ≤ 9 ∧ b.toNat % 16 ≤ 9 := by
  simp only [isBcd, toNat_highNibble, toNat_lowNibble, Bool.and_eq_true, decide_eq_true_eq]

theorem bcdValue_eq (b : Byte) : bcdValue b = 10 * (b.toNat / 16) + b.toNat % 16 := by
  rw [bcdValue, toNat_highNibble, toNat_lowNibble]

theorem bcdValue_eq_zero_iff {b : Byte} : bcdValue b = 0 ↔ b = 0 := by
  rw [bcdValue_eq, ← BitVec.toNat_inj]
  change _ ↔ b.toNat = 0
  omega

/-! ### The row of a decimal operation -/

/-- The byte, C and H are those of a binary addition or subtraction of two bytes whose high and low digits have the sums
or differences `hi` and `lo`. -/
structure BinaryResult (f : Flags) (v : Byte) (hi lo : Int) : Prop where
  value : (v.toNat : Int) = (16 * hi + lo) % 256
  c : f.c = true ↔ (16 * hi + lo) / 256 ≠ 0
  h : f.h = true ↔ lo / 16 ≠ 0

/-- The row matches that binary result, and what it adds makes its digits decimal, with the decimal carry or borrow. -/
structure FitsDigits (row : DaRow) (hi lo : Int) : Prop where
  c : row.c = true ↔ (16 * hi + lo) / 256 ≠ 0
  h : row.h = true ↔ lo / 16 ≠ 0
  high : row.hiFirst ≤ (16 * hi + lo) % 256 / 16 ∧ (16 * hi + lo) % 256 / 16 ≤ row.hiLast
  low : row.loFirst ≤ lo % 16 ∧ lo % 16 ≤ row.loLast
  digits : (16 * hi + lo + row.add.toNat) % 256 = 16 * ((hi + lo / 10) % 10) + lo % 10
  carry : row.carry = true ↔ (10 * hi + lo) / 100 ≠ 0

theorem FitsDigits.matches {row : DaRow} {f : Flags} {v : Byte} {hi lo : Int} (h : FitsDigits row hi lo)
    (hb : BinaryResult f v hi lo) (hd : row.d = f.d) : daRowMatches f v row = true := by
  have hv := hb.value
  have hhigh := h.high
  have hlow := h.low
  exact daRowMatches_iff.mpr ⟨⟨hd, Bool.eq_iff_iff.mpr (h.c.trans hb.c.symm),
    Bool.eq_iff_iff.mpr (h.h.trans hb.h.symm)⟩, by omega, by omega⟩

theorem FitsDigits.bcd {row : DaRow} {f : Flags} {v : Byte} {hi lo : Int} (h : FitsDigits row hi lo)
    (hb : BinaryResult f v hi lo) :
    isBcd (v + row.add) = true ∧ (bcdValue (v + row.add) : Int) = (10 * hi + lo) % 100 := by
  have hv := hb.value
  have hdigits := h.digits
  have hres : (v + row.add).toNat = (v.toNat + row.add.toNat) % 256 := BitVec.toNat_add ..
  rw [isBcd_iff, bcdValue_eq]
  omega

/-- A row by its place in the table. -/
def daRowAt (k : Fin 13) : DaRow := daTable.get k

theorem daRowAt_mem (k : Fin 13) : daRowAt k ∈ daTable := List.get_mem daTable k

/-- The place of the row for digit sums: by the carries of the low digits, decimal and binary, and then of the high. -/
def sumRow (hi lo : Int) : Fin 13 :=
  if lo ≤ 9 then if hi ≤ 9 then 0 else if hi ≤ 15 then 3 else 6
  else if lo ≤ 15 then if hi ≤ 8 then 1 else if hi ≤ 15 then 4 else 7
  else if hi ≤ 8 then 2 else if hi ≤ 14 then 5 else 8

theorem sumRow_fits {hi lo : Int} (hhi : 0 ≤ hi ∧ hi ≤ 18) (hlo : 0 ≤ lo ∧ lo ≤ 18) :
    (daRowAt (sumRow hi lo)).d = false ∧ FitsDigits (daRowAt (sumRow hi lo)) hi lo := by
  unfold sumRow
  split_ifs
  all_goals
    refine ⟨rfl, ?_⟩
    constructor <;> simp [daRowAt, daTable] <;> omega

/-- The place of the row for digit differences: by the borrows of the low and of the high digits. -/
def differenceRow (hi lo : Int) : Fin 13 :=
  if 0 ≤ lo then if 0 ≤ hi then 9 else 11 else if 1 ≤ hi then 10 else 12

theorem differenceRow_fits {hi lo : Int} (hhi : -9 ≤ hi ∧ hi ≤ 9) (hlo : -9 ≤ lo ∧ lo ≤ 9) :
    (daRowAt (differenceRow hi lo)).d = true ∧ FitsDigits (daRowAt (differenceRow hi lo)) hi lo := by
  unfold differenceRow
  split_ifs
  all_goals
    refine ⟨rfl, ?_⟩
    constructor <;> simp [daRowAt, daTable] <;> omega

/-! ### Both corrections -/

/-- DA completes with the decimal result. -/
theorem exec_da_decimal {i : Instr} {s : State} {dst : Loc} {da : Addr12} {row : DaRow} {hi lo : Int}
    (hform : daForm i = some dst) (hd : resolve s dst = .next da) (hp : resultPlace s da = true)
    (hf : flagsMeet s.undef.flags daReads = false) (hrow : row ∈ daTable) (hfit : FitsDigits row hi lo)
    (hb : BinaryResult s.flags (regVal s da) hi lo) (hrd : row.d = s.flags.d) :
    ∃ (t : State) (v : Byte), exec i s = .next t ∧ regRead t da = .next v ∧ isBcd v = true ∧
      (bcdValue v : Int) = (10 * hi + lo) % 100 ∧ (t.flags.c = true ↔ (10 * hi + lo) / 100 ≠ 0) ∧
      (t.flags.z = true ↔ bcdValue v = 0) := by
  obtain ⟨hbcd, hvalue⟩ := hfit.bcd hb
  obtain ⟨t, v, hexec, hread, -, hflags⟩ := adjustsBy_of_matches hform hd hp hf hrow (hfit.matches hb hrd)
  refine ⟨t, _, hexec, hread, hbcd, hvalue, ?_, ?_⟩
  · rw [hflags]
    exact hfit.carry
  · rw [hflags, bcdValue_eq_zero_iff]
    exact decide_eq_true_iff

theorem binaryResult_add (x y : Byte) (f : Flags) :
    BinaryResult (addFlags x y f) (x + y) (x.toNat / 16 + y.toNat / 16) (x.toNat % 16 + y.toNat % 16) where
  value := by
    rw [BitVec.toNat_add]
    omega
  c := by
    rw [show (addFlags x y f).c = carryOut x y from rfl, carryOut_iff]
    omega
  h := by
    rw [show (addFlags x y f).h = halfCarry x y from rfl, halfCarry_iff]
    omega

theorem binaryResult_sub {x y : Byte} {f : Flags} (hc : f.c = true ↔ x.toNat < y.toNat)
    (hh : f.h = true ↔ x.toNat % 16 < y.toNat % 16) :
    BinaryResult f (x - y) (x.toNat / 16 - y.toNat / 16) (x.toNat % 16 - y.toNat % 16) where
  value := by
    rw [BitVec.toNat_sub]
    omega
  c := by
    rw [hc]
    omega
  h := by
    rw [hh]
    omega

theorem flagsMeet_daReads_after_add (u : Flags) : flagsMeet (flagsMinus u addDefines) daReads = false :=
  flagsMeet_daReads.mpr (by simp [flagsMinus, addDefines])

/-- After ADD R,IM the same operand is ready for DA: the same place, unless that was RP, now holds the sum, and D, C
and H are defined. -/
theorem exec_add_R_IM_ready_for_da {s : State} {db : Byte} (y : Byte) (hrp : s.undef.rp = false)
    (hp : resultPlace s (eaR s.rp db) = true) (hne : eaR s.rp db ≠ s.cfg.rpAddr) :
    ∃ t, exec (.add_R_IM db y) s = .next t ∧ resolve t (.R db) = .next (eaR s.rp db) ∧
      resultPlace t (eaR s.rp db) = true ∧ flagsMeet t.undef.flags daReads = false ∧
      regVal t (eaR s.rp db) = regVal s (eaR s.rp db) + y ∧ t.flags = addFlags (regVal s (eaR s.rp db)) y s.flags := by
  have hclass : regClass s.cfg (eaR s.rp db) ≠ .rp := fun hc => hne (addr_of_regClass_rp hc)
  obtain ⟨-, hflags⟩ := resultPlace_eq_true.mp hp
  obtain ⟨hr, hval⟩ := regRead_eq_next.mp (regRead_putFlags_regPut (regVal s (eaR s.rp db) + y)
    (addFlags (regVal s (eaR s.rp db)) y s.flags) addDefines hp)
  refine ⟨_, exec_add_of_operands rfl (operands_im (resolve_R db hrp) hp), resolve_R_eq_next.mpr ⟨?_, ?_⟩,
    resultPlace_eq_true.mpr ⟨hr, ?_⟩, flagsMeet_daReads_after_add _, hval, rfl⟩
  · simpa [regPut_undef_rp, hclass] using hrp
  · simp [regPut_rp, hclass]
  · simpa using hflags

/-- Settles O44: the sum of ADD, with its C and H and a D of 0, is adjusted by the row of the digit sums. -/
theorem decimalAdditionIsCorrect : Obligations.DecimalAdditionIsCorrect := by
  intro s db y a x hrp hp hne hx hy
  obtain ⟨hxh, hxl⟩ := isBcd_iff.mp hx
  obtain ⟨hyh, hyl⟩ := isBcd_iff.mp hy
  obtain ⟨t, hadd, hresolve, hplace, hdefined, hval, hflags⟩ := exec_add_R_IM_ready_for_da y hrp hp hne
  obtain ⟨hrd, hfit⟩ := sumRow_fits (hi := x.toNat / 16 + y.toNat / 16) (lo := x.toNat % 16 + y.toNat % 16)
    (by omega) (by omega)
  have hb : BinaryResult t.flags (regVal t a) (x.toNat / 16 + y.toNat / 16) (x.toNat % 16 + y.toNat % 16) := by
    rw [hval, hflags]
    exact binaryResult_add x y s.flags
  have hd : t.flags.d = false := congrArg Flags.d hflags
  obtain ⟨u, v, hda, hread, hbcd, hvalue, hc, hz⟩ := exec_da_decimal (i := .da_R db) rfl hresolve hplace hdefined
    (daRowAt_mem _) hfit hb (hrd.trans hd.symm)
  have hsum : ((bcdValue x + bcdValue y : Nat) : Int) =
      10 * (x.toNat / 16 + y.toNat / 16) + (x.toNat % 16 + y.toNat % 16) := by
    rw [bcdValue_eq, bcdValue_eq]
    omega
  rw [← hsum] at hvalue hc
  refine ⟨t, u, v, hadd, hda, hread, hbcd, ?_, ?_, ?_⟩
  · omega
  · rw [hc]
    omega
  · rw [hz]
    omega

/-- Settles O45: C and H say which digits borrowed, and with D these select the row of the digit differences. -/
theorem decimalSubtractionIsCorrect : Obligations.DecimalSubtractionIsCorrect := by
  intro s i dst da x y hform hd hp hud huc huh hx hy hval hfd hfc hfh
  obtain ⟨hxh, hxl⟩ := isBcd_iff.mp hx
  obtain ⟨hyh, hyl⟩ := isBcd_iff.mp hy
  obtain ⟨hrd, hfit⟩ := differenceRow_fits (hi := x.toNat / 16 - y.toNat / 16) (lo := x.toNat % 16 - y.toNat % 16)
    (by omega) (by omega)
  obtain ⟨t, v, hexec, hread, hbcd, hvalue, hc, -⟩ := exec_da_decimal hform hd hp
    (flagsMeet_daReads.mpr ⟨hud, huc, huh⟩) (daRowAt_mem _) hfit (hval ▸ binaryResult_sub hfc hfh) (hrd.trans hfd.symm)
  refine ⟨t, v, hexec, hread, hbcd, ?_, ?_⟩
  · rw [bcdValue_eq x, bcdValue_eq y]
    omega
  · rw [hc, bcdValue_eq x, bcdValue_eq y]
    omega

end Sys2Proof.Machine
end

section
/-! AND, TCMX and TMX (R130 to R142): what a mask does to each bit, and the forms, which complete wherever their
operands can be read. -/

namespace Sys2Proof.Machine

/-! ### The flags of a logical result -/

theorem logicFlags_eq (v : Byte) (f : Flags) :
    logicFlags v f = { f with z := decide (v = 0), s := v.getLsbD 7, v := false } := by
  rw [logicFlags, beq_eq_decide]

theorem logicFlags_and (a b : Byte) (f : Flags) :
    logicFlags (a &&& b) f = { f with z := decide (a &&& b = 0), s := a.getLsbD 7 && b.getLsbD 7, v := false } := by
  rw [logicFlags_eq, BitVec.getLsbD_and]

theorem flagsMinus_logicDefines (u : Flags) :
    flagsMinus u logicDefines = { u with z := false, s := false, v := false } := by
  simp [flagsMinus, logicDefines]

/-! ### The bits a mask selects -/

theorem byte_eq_zero_iff {b : Byte} : b = 0 ↔ ∀ k, k < 8 → b.getLsbD k = false :=
  ⟨fun h _ _ => h ▸ BitVec.getLsbD_zero, fun h => BitVec.eq_of_getLsbD_eq fun k hk =>
    (h k hk).trans BitVec.getLsbD_zero.symm⟩

theorem getLsbD_and_eq_ite (a m : Byte) (k : Nat) :
    (a &&& m).getLsbD k = if m.getLsbD k then a.getLsbD k else false := by
  rw [BitVec.getLsbD_and]
  cases m.getLsbD k <;> simp

theorem getLsbD_underMask (a m : Byte) (k : Nat) : (underMask a m).getLsbD k = (m.getLsbD k && a.getLsbD k) := by
  rw [underMask, BitVec.getLsbD_and, Bool.and_comm]

theorem getLsbD_complementUnderMask (a m : Byte) {k : Nat} (hk : k < 8) :
    (complementUnderMask a m).getLsbD k = (m.getLsbD k && !a.getLsbD k) := by
  rw [complementUnderMask, BitVec.getLsbD_and, BitVec.getLsbD_not, decide_eq_true hk, Bool.true_and, Bool.and_comm]

/-- The bits TMX selects are all 0. -/
theorem underMask_eq_zero_iff {a m : Byte} :
    underMask a m = 0 ↔ ∀ k, k < 8 → m.getLsbD k = true → a.getLsbD k = false := by
  simp only [byte_eq_zero_iff, getLsbD_underMask, Bool.and_eq_false_imp]

/-- The bits TCMX selects are all 1. -/
theorem complementUnderMask_eq_zero_iff {a m : Byte} :
    complementUnderMask a m = 0 ↔ ∀ k, k < 8 → m.getLsbD k = true → a.getLsbD k = true := by
  rw [byte_eq_zero_iff]
  refine forall₂_congr fun k hk => ?_
  rw [getLsbD_complementUnderMask a m hk, Bool.and_eq_false_imp, Bool.not_eq_false']

/-! ### AND -/

section
variable {i : Instr} {s : State} {dst : Loc} {da : Addr12}

theorem exec_and_of_operands {src : Src} {o : Operands} (hi : andForm i = some (dst, src))
    (ho : operands s dst src = .next o) :
    exec i s = .next
      (advance (putFlags (regPut s o.da (o.a &&& o.b)) (logicFlags (o.a &&& o.b) s.flags) logicDefines) i.length) := by
  rw [exec_of_andForm hi]
  exact andResult_eq_next.mpr ⟨o, ho, rfl⟩

theorem completesWith_and {src : Src} {o : Operands} (hi : andForm i = some (dst, src))
    (ho : operands s dst src = .next o) :
    CompletesWith i s o.da (o.a &&& o.b) (logicFlags (o.a &&& o.b) s.flags) := by
  obtain ⟨-, hr, hc, -⟩ := operands_eq_next.mp ho
  exact ⟨_, exec_and_of_operands hi ho, regRead_putFlags_regPut _ _ _ (resultPlace_eq_true.mpr ⟨hr, hc⟩), rfl,
    by simp⟩

theorem completesWith_and_loc {l : Loc} {sa : Addr12} (hi : andForm i = some (dst, .loc l))
    (hd : resolve s dst = .next da) (hp : resultPlace s da = true) (hs : resolve s l = .next sa)
    (hr : readable s sa = true) :
    CompletesWith i s da (regVal s da &&& regVal s sa)
      { s.flags with z := decide (regVal s da &&& regVal s sa = 0),
                     s := (regVal s da).getLsbD 7 && (regVal s sa).getLsbD 7, v := false } := by
  rw [← logicFlags_and]
  exact completesWith_and hi (operands_loc hd hp hs hr)

/-- AND with a mask completes with what R142 says of each bit, and the flags of the result. -/
def MasksBy (i : Instr) (s : State) (da : Addr12) (im : Byte) : Prop :=
  ∃ (t : State) (v : Byte), exec i s = .next t ∧ regRead t da = .next v ∧
    (∀ k, k < 8 → v.getLsbD k = if im.getLsbD k then (regVal s da).getLsbD k else false) ∧
    t.flags = { s.flags with z := decide (v = 0), s := v.getLsbD 7, v := false } ∧
    t.pc = s.pc + BitVec.ofNat 16 i.length

theorem masksBy_of_andForm {im : Byte} (hi : andForm i = some (dst, .im im)) (hd : resolve s dst = .next da)
    (hp : resultPlace s da = true) : MasksBy i s da im := by
  obtain ⟨t, hexec, hread, hflags, hpc⟩ := completesWith_and hi (operands_im hd hp)
  exact ⟨t, _, hexec, hread, fun k _ => getLsbD_and_eq_ite _ _ k, hflags.trans (logicFlags_eq _ _), hpc⟩

end

/-- Settles O33: the operands resolve through RP, the source directly or by its pointer. -/
theorem andRegisterForms : Obligations.AndRegisterForms := by
  constructor
  · intro s d r da x y hrp hp hr
    exact ⟨completesWith_and_loc rfl (resolve_r d hrp) hp (resolve_r r hrp) hr, fun sa hi hs =>
      completesWith_and_loc rfl (resolve_r d hrp) hp (resolve_Ir_eq_next.mpr ⟨hrp, hr, hi⟩) hs⟩
  · intro s db sb da x y hrp hp hr
    exact ⟨completesWith_and_loc rfl (resolve_R db hrp) hp (resolve_R sb hrp) hr, fun sa hi hs =>
      completesWith_and_loc rfl (resolve_R db hrp) hp (resolve_IR_eq_next.mpr ⟨hrp, hr, hi⟩) hs⟩

/-- Settles O34: the destination is direct, or what its pointer names. -/
theorem andImmediateForms : Obligations.AndImmediateForms := fun _ db _ hrp =>
  ⟨fun hp => masksBy_of_andForm rfl (resolve_R db hrp) hp, fun _ hr hi hp =>
    masksBy_of_andForm rfl (resolve_IR_eq_next.mpr ⟨hrp, hr, hi⟩) hp⟩

/-! ### TCMX and TMX -/

/-- A test completes with pc and three flags changed: Z says whether the tested byte is 0, S is its bit 7. -/
theorem exec_test_of_operands {i : Instr} {f : Byte → Byte → Byte} {dst : Loc} {src : Src} {s : State} {o : Operands}
    {neg : Bool} {selected : Prop} (hi : exec i s = testResult f 4 dst src s) (ho : operands s dst src = .next o)
    (hs : (f o.a o.b).getLsbD 7 = neg) (hz : f o.a o.b = 0 ↔ selected) :
    ∃ z : Bool, exec i s = .next
      { s with pc := s.pc + 4
               undef := { s.undef with flags := { s.undef.flags with z := false, s := false, v := false } }
               flags := { s.flags with z := z, s := neg, v := false } } ∧ (z = true ↔ selected) := by
  refine ⟨decide (f o.a o.b = 0), ?_, decide_eq_true_iff.trans hz⟩
  rw [hi, ← hs, ← flagsMinus_logicDefines, ← logicFlags_eq]
  exact testResult_eq_next.mpr ⟨o, ho, rfl⟩

/-- Settles O35: the tested byte has a 1 where a selected bit of the destination is 0. -/
theorem tcmxTestsSelectedBitsForOne : Obligations.TcmxTestsSelectedBitsForOne := by
  intro s e1 da hd hp
  have hbit (m : Byte) := getLsbD_complementUnderMask (regVal s da) m (k := 7) (by decide)
  refine ⟨fun im => ?_, fun e2 sa hs hr => ?_⟩
  · exact exec_test_of_operands rfl (operands_im hd hp) (hbit im) complementUnderMask_eq_zero_iff
  · exact exec_test_of_operands rfl (operands_loc hd hp hs hr) (hbit _) complementUnderMask_eq_zero_iff

/-- Settles O36: the tested byte has a 1 where a selected bit of the destination is 1. -/
theorem tmxTestsSelectedBitsForZero : Obligations.TmxTestsSelectedBitsForZero := by
  intro s e1 da hd hp
  refine ⟨fun im => ?_, fun e2 sa hs hr => ?_⟩
  · exact exec_test_of_operands rfl (operands_im hd hp) (getLsbD_underMask _ im 7) underMask_eq_zero_iff
  · exact exec_test_of_operands rfl (operands_loc hd hp hs hr) (getLsbD_underMask _ _ 7) underMask_eq_zero_iff

end Sys2Proof.Machine
end

section
/-! LD r,IM, LDWX and DJNZ (R150 to R153, R163): the completion of the loads, and where each of the three stops. -/

namespace Sys2Proof.Machine

/-! ### Completion -/

/-- Settles O37: the immediate is put at the working register, whatever its class. -/
theorem ldLoadsTheImmediate : Obligations.LdLoadsTheImmediate := by
  intro s d im hrp hm
  refine ⟨_, execLd_eq_next.mpr ⟨hrp, hm, rfl⟩, regRead_put_self im hm, ?_, fun hne => ?_, fun hc => ?_, fun hc => ?_⟩
  · simp
  · exact regPut_flags_of_ne im (mt addr_of_regClass_flags hne)
  · exact (regPut_flags s _ im).trans (if_pos hc)
  · exact (regPut_rp s _ im).trans (if_pos hc)

theorem addr_ne_add_one (a : Addr12) : a ≠ a + 1 := fun h => absurd (left_eq_add.mp h) (by decide)

/-- Settles O38: the second write is at another location than the first, so it leaves the first byte alone. -/
theorem ldwxCopiesTheWord : Obligations.LdwxCopiesTheWord := by
  intro s e1 e2 da sa hd hs hde hse hmd hmd1 hrs hrs1
  have hexec := execLdwx_eq_next.mpr ⟨da, sa, hd, hs, hde, hse, hmd, hmd1, hrs, hrs1, rfl⟩
  refine ⟨_, hexec, ?_, ?_, ?_, fun hne hne1 => ?_⟩
  · exact (regRead_put_ne _ _ (addr_ne_add_one da)).trans (regRead_put_self _ hmd)
  · exact regRead_put_self _ (by rwa [regPut_cfg])
  · simp
  · have hc : regClass (regPut s da (regVal s sa)).cfg (da + 1) ≠ .flags := by
      rw [regPut_cfg]
      exact mt addr_of_regClass_flags hne1
    exact (regPut_flags_of_ne _ hc).trans (regPut_flags_of_ne _ (mt addr_of_regClass_flags hne))

/-! ### Stops -/

section
variable {α : Type}

/-- The check of R44 as a branch. -/
theorem andThen_mustBeModelled (c : Config) (a : Addr12) (k : Unit → Result α) :
    andThen (mustBeModelled c a) k = if modelled c a = false then .refused (.unmodelledRegister a) else k () := by
  unfold mustBeModelled
  cases modelled c a <;> rfl

/-- The check of R152 as a branch. -/
theorem andThen_mustBeEven (da sa : Addr12) (k : Unit → Result α) :
    andThen (mustBeEven da sa) k =
      if da.getLsbD 0 = true ∨ sa.getLsbD 0 = true then .refused .ldwxOddAddress else k () := by
  unfold mustBeEven
  cases da.getLsbD 0 <;> cases sa.getLsbD 0 <;> rfl

/-- The read of a modelled location as a branch (R61). -/
theorem andThen_regRead_of_modelled {s : State} {a : Addr12} (h : modelled s.cfg a = true) (k : Byte → Result α) :
    andThen (regRead s a) k = if unwritten s a = true then .fault (.unwrittenRegister a) else k (regVal s a) := by
  rw [regRead, (mustBeModelled_eq_next (u := ())).mpr h, andThen_next]
  cases unwritten s a <;> rfl

end

/-- What LDWX does once its operands are resolved: its checks one by one, in the order of R194 (log 16). -/
theorem execLdwx_of_resolve {s : State} {e1 e2 da sa : Addr12} (hd : resolve s (.ER e1) = .next da)
    (hs : resolve s (.ER e2) = .next sa) :
    execLdwx_ER_ER e1 e2 s =
      if da.getLsbD 0 = true ∨ sa.getLsbD 0 = true then .refused .ldwxOddAddress
      else if modelled s.cfg da = false then .refused (.unmodelledRegister da)
      else if modelled s.cfg (da + 1) = false then .refused (.unmodelledRegister (da + 1))
      else if modelled s.cfg sa = false then .refused (.unmodelledRegister sa)
      else if modelled s.cfg (sa + 1) = false then .refused (.unmodelledRegister (sa + 1))
      else if unwritten s sa = true then .fault (.unwrittenRegister sa)
      else if unwritten s (sa + 1) = true then .fault (.unwrittenRegister (sa + 1))
      else .next (advance (regPut (regPut s da (regVal s sa)) (da + 1) (regVal s (sa + 1))) 5) := by
  rw [execLdwx_ER_ER, hd, andThen_next, hs, andThen_next, andThen_mustBeEven]
  simp only [andThen_mustBeModelled]
  -- the reads and the writes, where both pairs are modelled
  refine ite_congr rfl (fun _ => rfl) fun _ => ite_congr rfl (fun _ => rfl) fun hda => ite_congr rfl (fun _ => rfl)
    fun hda1 => ite_congr rfl (fun _ => rfl) fun hsa => ite_congr rfl (fun _ => rfl) fun hsa1 => ?_
  rw [Bool.not_eq_false] at hda hda1 hsa hsa1
  rw [andThen_regRead_of_modelled hsa, andThen_regRead_of_modelled hsa1, regWrite_of_modelled _ hda, andThen_next,
    regWrite_of_modelled _ (by rwa [regPut_cfg]), andThen_next]

theorem resolve_r_of_undefined {s : State} (n : Nibble) (h : s.undef.rp = true) :
    resolve s (.r n) = .fault (.unwrittenRegister s.cfg.rpAddr) :=
  andThen_eq_fault.mpr (.inl (rpOf_eq_fault.mpr ⟨h, rfl⟩))

/-- Settles O48: LDWX stops as its operands' resolutions do, then at the first check of `execLdwx_of_resolve` that
fails; LD and DJNZ stop at RP, then at the working register. -/
theorem loadRefusals : Obligations.LoadRefusals := by
  refine ⟨fun s e1 e2 => ⟨fun q h => ?_, fun f h => ?_, fun da hd => ⟨fun q h => ?_, fun f h => ?_⟩⟩,
    fun s e1 e2 da sa hd hs => ?_, fun s d b => ⟨fun h => ⟨?_, ?_⟩, fun hrp h => ⟨?_, ?_⟩, fun hrp hm h => ?_⟩⟩
  · rw [exec, execLdwx_ER_ER, h, andThen_refused]
  · rw [exec, execLdwx_ER_ER, h, andThen_fault]
  · rw [exec, execLdwx_ER_ER, hd, andThen_next, h, andThen_refused]
  · rw [exec, execLdwx_ER_ER, hd, andThen_next, h, andThen_fault]
  · rw [exec, execLdwx_of_resolve hd hs]
    exact ⟨fun hodd => if_pos hodd, by simp +contextual⟩
  · rw [exec, execLd_r_IM, resolve_r_of_undefined d h, andThen_fault]
  · rw [exec, execDjnz, resolve_r_of_undefined d h, andThen_fault]
  · rw [exec, execLd_r_IM, resolve_r d hrp, andThen_next, regWrite_eq_refused.mpr ⟨h, rfl⟩, andThen_refused]
  · rw [exec, execDjnz, resolve_r d hrp, andThen_next, regRead_eq_refused.mpr ⟨h, rfl⟩, andThen_refused]
  · rw [exec, execDjnz, resolve_r d hrp, andThen_next, regRead_eq_fault.mpr ⟨hm, h, rfl⟩, andThen_fault]

end Sys2Proof.Machine
end

section
/-! BRK, DJNZ, JR cc and JP cc (R161 to R168): where each leaves pc, and what else it changes. -/

namespace Sys2Proof.Machine

/-! ### The count and the targets as integers -/

theorem toNat_byte_sub_one (x : Byte) : (x - 1).toNat = (x.toNat + 255) % 256 := by
  rw [BitVec.toNat_sub, Nat.add_comm]
  rfl

theorem toNat_nextPc (s : State) (n : Nat) : (nextPc s n).toNat = (s.pc.toNat + n) % 65536 := by
  simp [nextPc]

theorem relTarget_eq_ofInt (s : State) (n : Nat) (ra : Byte) :
    relTarget s n ra = BitVec.ofInt 16 ((s.pc.toNat : Int) + n + ra.toInt) := by
  simp [relTarget, nextPc, BitVec.signExtend, BitVec.ofInt_add]

/-- R101: the displacement counts signed from the byte after the instruction, modulo 2^16. -/
theorem toNat_relTarget (s : State) (n : Nat) (ra : Byte) :
    ((relTarget s n ra).toNat : Int) = ((s.pc.toNat : Int) + n + ra.toInt) % 65536 := by
  rw [relTarget_eq_ofInt, BitVec.toNat_ofInt]
  exact Int.toNat_of_nonneg (Int.emod_nonneg _ (by decide))

/-! ### The instructions -/

/-- Settles O15: the two arms of BRK_MODE. -/
theorem brkFollowsItsMode : Obligations.BrkFollowsItsMode := by
  have hnop (s : State) (h : s.cfg.brkMode = .nop) : exec .brk s = .next { s with pc := s.pc + 1 } :=
    execBrk_eq_next.mpr ⟨h, rfl⟩
  refine ⟨rfl, rfl, fun s => ⟨fun h => ?_, hnop s⟩, fun s h hpc => ?_⟩
  · rw [exec, execBrk, h]
  · rw [hnop s h, hpc]
    rfl

/-- Settles O39: the decremented value is what the register then holds, and whether it is 0 chooses the target. -/
theorem djnzCountsDown : Obligations.DjnzCountsDown := by
  intro s d ra hrp hr
  refine ⟨_, regVal s (wr s.rp d) - 1, execDjnz_eq_next.mpr ⟨hrp, hr, rfl⟩, ?_, toNat_byte_sub_one _, fun hz => ?_,
    fun hnz => ?_, fun hne => ?_⟩
  · exact regRead_put_self _ (readable_eq_true.mp hr).1
  · exact if_neg (not_not.mpr hz)
  · rw [State.setPc_pc, if_pos hnz]
    exact toNat_relTarget s 2 ra
  · exact regPut_flags_of_ne _ (mt addr_of_regClass_flags hne)

/-- Settles O40: whether the condition holds chooses the target. -/
theorem jrJumpsByDisplacement : Obligations.JrJumpsByDisplacement := by
  intro s cc ra hf
  refine ⟨_, execJr_eq_next.mpr ⟨hf, rfl⟩, fun hc => ?_, fun hc => ?_⟩
  · rw [if_pos hc]
    exact toNat_relTarget s 2 ra
  · rw [if_neg (ne_true_of_eq_false hc)]
    exact toNat_nextPc s 2

theorem exec_jp {s : State} {cc : Cond} (da16 : Addr16) (hf : flagsMeet s.undef.flags (condReads cc) = false) :
    exec (.jp cc da16) s = .next { s with pc := if condHolds s.flags cc then da16 else nextPc s 3 } :=
  execJp_eq_next.mpr ⟨hf, rfl⟩

/-- Settles O41: whether the condition holds chooses the target; ULE reads C and Z only, and holds for Z = 1. -/
theorem jpJumpsToAddress : Obligations.JpJumpsToAddress := by
  refine ⟨fun s cc da16 hf => ⟨_, exec_jp da16 hf, fun hc => if_pos hc, fun hc => ?_⟩, fun s huc huz _ hz => ?_⟩
  · rw [if_neg (ne_true_of_eq_false hc)]
    exact toNat_nextPc s 3
  · have hf : flagsMeet s.undef.flags (condReads .ule) = false := by
      simp [flagsMeet, condReads, Flags.zero, huc, huz]
    have hc : condHolds s.flags .ule = true := by simp [condHolds, hz]
    rw [exec_jp _ hf, if_pos hc]

end Sys2Proof.Machine
end

section
/-! SRP and the Register Pointer (R180, R181): what SRP changes, and that nothing but SRP and a write to the RP location
changes RP. -/

namespace Sys2Proof.Machine

/-- Settles O42: exec answers RP put and pc advanced; the window is the one of the new RP, and a new RP shows at the RP
location only. -/
theorem srpSwitchesTheWindow : Obligations.SrpSwitchesTheWindow := fun s im =>
  ⟨advance (putRp s im) 2, rfl, rfl, rfl, rfl, rfl, fun n => resolve_r n rfl,
    fun _ ha => regRead_putRp s im (mt addr_of_regClass_rp ha)⟩

/-- RP is as it was, and undefined exactly if it was. -/
def RpKept (s t : State) : Prop := t.rp = s.rp ∧ t.undef.rp = s.undef.rp

theorem RpKept.trans {s t u : State} (h : RpKept s t) (h' : RpKept t u) : RpKept s u :=
  ⟨h'.1.trans h.1, h'.2.trans h.2⟩

/-- RP has no location but its own (R40). -/
theorem rpKept_regPut {s : State} {a : Addr12} (v : Byte) (h : s.cfg.rpAddr ≠ a) : RpKept s (regPut s a v) := by
  have hc : regClass s.cfg a ≠ .rp := fun hc => h (addr_of_regClass_rp hc).symm
  exact ⟨by rw [regPut_rp, if_neg hc], by rw [regPut_undef_rp, if_neg hc]⟩

/-- A result stored in a destination that is not the RP location leaves RP. -/
theorem rpKept_result {i : Instr} {s : State} {dst : Loc} {da : Addr12} (v : Byte) (hrp : s.cfg.rpAddr ∉ writes s i)
    (hw : writes s i = placeOf s dst) (hd : resolve s dst = .next da) : RpKept s (regPut s da v) := by
  rw [hw, mem_placeOf hd] at hrp
  exact rpKept_regPut v hrp

/-- An instruction that is no SRP, and whose destinations do not include the RP location, leaves RP: beside SRP's, the
only change of RP is by a byte written to a place of `writes`. -/
theorem rpKept_of_exec {i : Instr} {s t : State} (h : exec i s = .next t) (hsrp : ∀ im, i ≠ .srp im)
    (hrp : s.cfg.rpAddr ∉ writes s i) : RpKept s t := by
  cases completion_of_exec h with
  | srp => exact absurd rfl (hsrp _)
  | brk | jr | jp | test => exact ⟨rfl, rfl⟩
  | add hi ho => exact rpKept_result _ hrp (writes_of_addForm hi) (operands_eq_next.mp ho).1
  | and hi ho => exact rpKept_result _ hrp (writes_of_andForm hi) (operands_eq_next.mp ho).1
  | da hi hd => exact rpKept_result _ hrp (writes_of_daForm hi) hd
  | djnz hdef | ld hdef => exact rpKept_result _ hrp rfl (resolve_r _ hdef)
  | @ldwx _ _ da _ hd =>
    obtain ⟨hne, hne1⟩ : s.cfg.rpAddr ≠ da ∧ s.cfg.rpAddr ≠ da + 1 := by
      simpa [writes, placeOf_of_next hd] using hrp
    exact (rpKept_regPut _ hne).trans (rpKept_regPut _ (by rwa [regPut_cfg]))

/-- Settles O55: SRP leaves its immediate in RP, and any other instruction keeps RP unless it writes RP's location. -/
theorem rpChangesOnlyByWrite : Obligations.RpChangesOnlyByWrite := by
  intro i s t h
  by_cases hrp : s.cfg.rpAddr ∈ writes s i
  case pos => exact .inr (.inr hrp)
  by_cases hsrp : ∃ im, i = .srp im
  case pos =>
    obtain ⟨im, rfl⟩ := hsrp
    cases h
    exact .inr (.inl rfl)
  case neg => exact .inl (rpKept_of_exec h (not_exists.mp hsrp) hrp)

end Sys2Proof.Machine
end

section
/-! What can stop an instruction (60_exceptions.md R190, R194): the faults of `exec`, and the order in which the forms
with a destination and a source report their stops. -/

namespace Sys2Proof.Machine

/-! ### The forms with a destination and a source -/

/-- Every such form reads its operands first, and what it does with them cannot fault. -/
theorem exec_of_operandForm {i : Instr} {dst : Loc} {src : Src} (s : State) (h : operandForm i = some (dst, src)) :
    ∃ k : Operands → Result State, exec i s = andThen (operands s dst src) k ∧ ∀ o f, k o ≠ .fault f := by
  rcases operandForm_cases h with h | h | h
  · exact ⟨_, exec_of_addForm h, fun o f => by simp [andThen_eq_fault, regWrite_not_fault]⟩
  · exact ⟨_, exec_of_andForm h, fun o f => by simp [andThen_eq_fault, regWrite_not_fault]⟩
  · obtain ⟨f, hf⟩ := exec_of_testForm (s := s) h
    exact ⟨_, hf, nofun⟩

/-! ### Faults -/

/-- The operation faults, if at all, on something undefined in `s`. -/
def FaultsOnUndefined (s : State) {α : Type} (r : Result α) : Prop := ∀ f, r = .fault f → UnwrittenFault s f

theorem faultsOnUndefined_of_not_fault {s : State} {α : Type} {r : Result α} (h : ∀ f, r ≠ .fault f) :
    FaultsOnUndefined s r := fun f hf => absurd hf (h f)

theorem faultsOnUndefined_next (s : State) {α : Type} (a : α) : FaultsOnUndefined s (.next a) := nofun

/-- A chain whose parts fault only on something undefined does so too. -/
theorem FaultsOnUndefined.andThen {s : State} {α β : Type} {r : Result α} {k : α → Result β}
    (hr : FaultsOnUndefined s r) (hk : ∀ a, FaultsOnUndefined s (k a)) : FaultsOnUndefined s (andThen r k) := by
  intro f h
  rcases andThen_eq_fault.mp h with h | ⟨a, -, h⟩
  · exact hr f h
  · exact hk a f h

theorem faultsOnUndefined_mustBeModelled (s : State) (c : Config) (a : Addr12) :
    FaultsOnUndefined s (mustBeModelled c a) := faultsOnUndefined_of_not_fault fun _ => mustBeModelled_not_fault

theorem faultsOnUndefined_mustNotBeFlags (s : State) (c : Config) (a : Addr12) :
    FaultsOnUndefined s (mustNotBeFlags c a) := faultsOnUndefined_of_not_fault fun _ => mustNotBeFlags_not_fault

theorem faultsOnUndefined_mustBeEven (s : State) (da sa : Addr12) : FaultsOnUndefined s (mustBeEven da sa) := by
  unfold mustBeEven; split <;> nofun

theorem faultsOnUndefined_daRowFor (s : State) (f : Flags) (v : Byte) : FaultsOnUndefined s (daRowFor f v) := by
  unfold daRowFor; split <;> nofun

theorem faultsOnUndefined_regWrite (s t : State) (a : Addr12) (v : Byte) : FaultsOnUndefined s (regWrite t a v) :=
  faultsOnUndefined_of_not_fault fun _ => regWrite_not_fault

theorem faultsOnUndefined_regRead (s : State) (a : Addr12) : FaultsOnUndefined s (regRead s a) :=
  fun _ => regRead_fault

theorem faultsOnUndefined_flagsFor (s : State) (m : Flags) : FaultsOnUndefined s (flagsFor s m) :=
  fun _ => flagsFor_fault

theorem faultsOnUndefined_resolve (s : State) (l : Loc) : FaultsOnUndefined s (resolve s l) :=
  fun _ => resolve_fault

theorem faultsOnUndefined_of_operandForm {i : Instr} {dst : Loc} {src : Src} (s : State)
    (h : operandForm i = some (dst, src)) : FaultsOnUndefined s (exec i s) := by
  obtain ⟨k, hexec, hk⟩ := exec_of_operandForm s h
  rw [hexec]
  exact .andThen (fun _ => operands_fault) fun o => faultsOnUndefined_of_not_fault (hk o)

theorem faultsOnUndefined_decimalAdjust (s : State) (dst : Loc) : FaultsOnUndefined s (decimalAdjust dst s) :=
  .andThen (faultsOnUndefined_resolve s dst) fun da =>
    .andThen (faultsOnUndefined_mustBeModelled s _ da) fun _ =>
      .andThen (faultsOnUndefined_mustNotBeFlags s _ da) fun _ =>
        .andThen (faultsOnUndefined_regRead s da) fun v =>
          .andThen (faultsOnUndefined_flagsFor s daReads) fun f =>
            .andThen (faultsOnUndefined_daRowFor s f v) fun _ =>
              .andThen (faultsOnUndefined_regWrite s s da _) fun _ => faultsOnUndefined_next s _

theorem faultsOnUndefined_execLd (s : State) (d : Nibble) (im : Byte) : FaultsOnUndefined s (execLd_r_IM d im s) :=
  .andThen (faultsOnUndefined_resolve s _) fun a =>
    .andThen (faultsOnUndefined_regWrite s s a im) fun _ => faultsOnUndefined_next s _

theorem faultsOnUndefined_execDjnz (s : State) (d : Nibble) (ra : Byte) : FaultsOnUndefined s (execDjnz d ra s) :=
  .andThen (faultsOnUndefined_resolve s _) fun a =>
    .andThen (faultsOnUndefined_regRead s a) fun _ =>
      .andThen (faultsOnUndefined_regWrite s s a _) fun _ => faultsOnUndefined_next s _

theorem faultsOnUndefined_execLdwx (s : State) (e1 e2 : Addr12) : FaultsOnUndefined s (execLdwx_ER_ER e1 e2 s) :=
  .andThen (faultsOnUndefined_resolve s _) fun da =>
    .andThen (faultsOnUndefined_resolve s _) fun sa =>
      .andThen (faultsOnUndefined_mustBeEven s da sa) fun _ =>
        .andThen (faultsOnUndefined_mustBeModelled s _ da) fun _ =>
          .andThen (faultsOnUndefined_mustBeModelled s _ (da + 1)) fun _ =>
            .andThen (faultsOnUndefined_mustBeModelled s _ sa) fun _ =>
              .andThen (faultsOnUndefined_mustBeModelled s _ (sa + 1)) fun _ =>
                .andThen (faultsOnUndefined_regRead s sa) fun hi =>
                  .andThen (faultsOnUndefined_regRead s (sa + 1)) fun lo =>
                    .andThen (faultsOnUndefined_regWrite s s da hi) fun t =>
                      .andThen (faultsOnUndefined_regWrite s t (da + 1) lo) fun _ => faultsOnUndefined_next s _

/-- Every instruction but BRK faults only on something undefined. -/
theorem faultsOnUndefined_exec {i : Instr} (s : State) (hi : i ≠ .brk) : FaultsOnUndefined s (exec i s) := by
  cases i with
  | brk => exact absurd rfl hi
  | srp => exact faultsOnUndefined_next s _
  | jr | jp => exact .andThen (faultsOnUndefined_flagsFor s _) fun _ => faultsOnUndefined_next s _
  | djnz => exact faultsOnUndefined_execDjnz s _ _
  | ld_r_IM => exact faultsOnUndefined_execLd s _ _
  | ldwx_ER_ER => exact faultsOnUndefined_execLdwx s _ _
  | da_R | da_IR => exact faultsOnUndefined_decimalAdjust s _
  | add_r_r | add_r_Ir | add_R_R | add_R_IR | add_R_IM | add_IR_IM | addx_ER_ER | addx_ER_IM
  | and_r_r | and_r_Ir | and_R_R | and_R_IR | and_R_IM | and_IR_IM
  | tcmx_ER_ER | tcmx_ER_IM | tmx_ER_ER | tmx_ER_IM => exact faultsOnUndefined_of_operandForm s rfl

theorem execBrk_eq_fault {s : State} {f : Fault} : execBrk s = .fault f ↔ s.cfg.brkMode = .stop ∧ f = .brk := by
  unfold execBrk; split <;> simp_all [@eq_comm _ f]

theorem not_unwrittenFault_of_allDefined {s : State} {f : Fault} (h : AllDefined s) : ¬ UnwrittenFault s f := by
  rintro ⟨a, -, ha⟩
  exact Bool.noConfusion ((undefinedAt_of_allDefined h a).symm.trans ha)

/-- Settles O14: BRK faults as BRK_MODE says, every other instruction only on something undefined. -/
theorem onlyBrkFaults : Obligations.OnlyBrkFaults := by
  intro i s f h
  by_cases hi : i = .brk
  case pos =>
    subst hi
    obtain ⟨hmode, hf⟩ := execBrk_eq_fault.mp h
    exact ⟨.inl ⟨rfl, hmode, hf⟩, fun _ => ⟨rfl, hf⟩⟩
  case neg =>
    have hu : UnwrittenFault s f := faultsOnUndefined_exec s hi f h
    exact ⟨.inr hu, fun hdef => absurd hu (not_unwrittenFault_of_allDefined hdef)⟩

/-! ### The order of the stops -/

/-- The check of R42 as a branch. -/
theorem andThen_mustNotBeFlags {α : Type} (c : Config) (a : Addr12) (k : Unit → Result α) :
    andThen (mustNotBeFlags c a) k = if regClass c a = .flags then .refused .flagsAsDestination else k () := by
  unfold mustNotBeFlags
  split <;> rfl

theorem modelled_of_flags {c : Config} {a : Addr12} (h : regClass c a = .flags) : modelled c a = true := by
  simp [modelled, h]

section
variable {s : State} {dst : Loc} {da : Addr12}

/-- The reading of a destination and an immediate once the destination is resolved: its checks one by one. -/
theorem operands_im_of_resolve (v : Byte) (hd : resolve s dst = .next da) :
    operands s dst (.im v) =
      if modelled s.cfg da = false then .refused (.unmodelledRegister da)
      else if regClass s.cfg da = .flags then .refused .flagsAsDestination
      else if unwritten s da = true then .fault (.unwrittenRegister da)
      else .next ⟨da, regVal s da, v⟩ := by
  simp only [operands, hd, andThen_next, andThen_mustBeModelled, andThen_mustNotBeFlags]
  refine ite_congr rfl (fun _ => rfl) fun hm => ite_congr rfl (fun _ => rfl) fun _ => ?_
  exact andThen_regRead_of_modelled (Bool.not_eq_false _ ▸ hm) _

/-- The reading of a destination and a source location once both are resolved: its checks one by one. -/
theorem operands_loc_of_resolve {l : Loc} {sa : Addr12} (hd : resolve s dst = .next da)
    (hs : resolve s l = .next sa) :
    operands s dst (.loc l) =
      if modelled s.cfg da = false then .refused (.unmodelledRegister da)
      else if modelled s.cfg sa = false then .refused (.unmodelledRegister sa)
      else if regClass s.cfg da = .flags then .refused .flagsAsDestination
      else if unwritten s da = true then .fault (.unwrittenRegister da)
      else if unwritten s sa = true then .fault (.unwrittenRegister sa)
      else .next ⟨da, regVal s da, regVal s sa⟩ := by
  simp only [operands, hd, hs, andThen_next, andThen_mustBeModelled, andThen_mustNotBeFlags]
  refine ite_congr rfl (fun _ => rfl) fun hda => ite_congr rfl (fun _ => rfl) fun hsa =>
    ite_congr rfl (fun _ => rfl) fun _ => ?_
  rw [Bool.not_eq_false] at hda hsa
  rw [andThen_regRead_of_modelled hda, andThen_regRead_of_modelled hsa]

end

/-- Settles O46: the forms stop as their operands' resolutions do, then at the first check of
`operands_loc_of_resolve` or `operands_im_of_resolve` that fails. -/
theorem operandFormsStopInOrder : Obligations.OperandFormsStopInOrder := by
  refine ⟨fun i s dst src hi => ?_, fun i s dst l da hi hd => ?_, fun i s dst l da sa hi hd hs => ?_,
    fun i s dst v da hi hd => ?_⟩
  all_goals
    obtain ⟨k, hexec, -⟩ := exec_of_operandForm s hi
    rw [hexec]
  · exact ⟨fun q h => by rw [operands, h, andThen_refused, andThen_refused],
      fun f h => by rw [operands, h, andThen_fault, andThen_fault]⟩
  · exact ⟨fun q h => by simp only [operands, hd, h, andThen_next, andThen_refused],
      fun f h => by simp only [operands, hd, h, andThen_next, andThen_fault]⟩
  · rw [operands_loc_of_resolve hd hs]
    refine ⟨fun hda => ?_, fun hda hsa => ?_, fun hsa hc => ?_, fun hda hsa hc hu => ?_, fun hp hsa hu => ?_⟩
    · simp [hda]
    · simp [hda, hsa]
    · simp [modelled_of_flags hc, hsa, hc]
    · simp [hda, hsa, hc, hu]
    · obtain ⟨hr, hc⟩ := resultPlace_eq_true.mp hp
      obtain ⟨hda, hua⟩ := readable_eq_true.mp hr
      simp [hda, hsa, hc, hua, hu]
  · rw [operands_im_of_resolve v hd]
    refine ⟨fun hda => ?_, fun hc => ?_, fun hda hc hu => ?_⟩
    · simp [hda]
    · simp [modelled_of_flags hc, hc]
    · simp [hda, hc, hu]

end Sys2Proof.Machine
end

section
/-! The end of a run (70_reset_and_hazards.md R227): where the step answers endOfRun, and how `runEnd` ends. -/

namespace Sys2Proof.Machine

/-! ### Where the step answers endOfRun -/

/-- The faults of the reading of program memory: a byte outside it (R53), or one that the image does not give. -/
def MissingByte (f : Fault) : Prop := f = .fetchOutsideProgramMemory ∨ ∃ a, f = .unprogrammedByte a

theorem not_missingByte_endOfRun : ¬ MissingByte .endOfRun := by simp [MissingByte]

theorem progBytes_fault {m : List Host.Cell} {a n : Nat} {f : Fault} (h : progBytes m a n = .fault f) :
    MissingByte f := by
  induction n generalizing a with
  | zero => cases h
  | succ n ih =>
    rw [progBytes] at h
    split at h
    · cases h
      exact .inr ⟨a, rfl⟩
    · rcases andThen_eq_fault.mp h with h | ⟨_, -, h⟩
      · exact ih h
      · cases h

theorem memRead_fault {s : State} {a : Addr16} {n : Nat} {f : Fault} (h : memRead s a n = .fault f) :
    MissingByte f := by
  unfold memRead at h
  split at h
  · cases h
    exact .inl rfl
  · exact progBytes_fault h

theorem fetchOpCode_fault {s : State} {f : Fault} (h : fetchOpCode s = .fault f) : MissingByte f := by
  rcases andThen_eq_fault.mp h with h | ⟨op, -, h⟩
  · exact memRead_fault h
  · split at h
    · exact memRead_fault h
    · cases h

theorem decodedOutcome_not_fault {bs : List Byte} {d : Decoded} {f : Fault} : decodedOutcome bs d ≠ .fault f := by
  cases d <;> simp [decodedOutcome]

theorem fetch_of_endPc {s : State} (h : s.cfg.endPc = some s.pc) : fetch s = .fault .endOfRun := if_pos h

/-- Away from END_PC the fetch faults only on a byte that it cannot read. -/
theorem fetch_fault {s : State} {f : Fault} (he : s.cfg.endPc ≠ some s.pc) (h : fetch s = .fault f) :
    MissingByte f := by
  rw [fetch, if_neg he] at h
  rcases andThen_eq_fault.mp h with h | ⟨op, -, h⟩
  · exact fetchOpCode_fault h
  · split at h
    · cases h
    · rcases andThen_eq_fault.mp h with h | ⟨bytes, -, h⟩
      · exact memRead_fault h
      · exact absurd h decodedOutcome_not_fault

/-- No instruction answers endOfRun: BRK has the Break, and every other fault is unwrittenRegister. -/
theorem exec_ne_endOfRun (i : Instr) (s : State) : exec i s ≠ .fault .endOfRun := by
  intro h
  rcases (onlyBrkFaults i s _ h).1 with ⟨-, -, hf⟩ | ⟨_, hf, -⟩ <;> cases hf

/-- Settles O12: END_PC is the first thing the fetch looks at, and neither what follows in the fetch nor an
instruction answers endOfRun. -/
theorem runEndsExactlyAtEndPc : Obligations.RunEndsExactlyAtEndPc := by
  refine fun s => ⟨fun h => ?_, fun h => by rw [step, fetch_of_endPc h, andThen_fault]⟩
  by_contra he
  rcases andThen_eq_fault.mp h with h | ⟨i, -, h⟩
  · exact not_missingByte_endOfRun (fetch_fault he h)
  · exact exec_ne_endOfRun i s h

/-! ### How a run goes on and ends, by what its next step answers -/

section
variable {named : Option Addr16} {n : Nat} {s t : State}

theorem runEnd_of_next (h : step s = .next t) : runEnd named (n + 1) s = runEnd named n t := by
  rw [runEnd, h]

theorem runEnd_of_refused {q : Refusal} (h : step s = .refused q) : runEnd named (n + 1) s = .notFinal s := by
  rw [runEnd, h]

theorem runEnd_of_endOfRun (h : step s = .fault .endOfRun) : runEnd named (n + 1) s = .final s := by
  rw [runEnd, h]

theorem runEnd_of_brk (h : step s = .fault .brk) :
    runEnd named (n + 1) s = if named = some s.pc then .final s else .notFinal s := by
  rw [runEnd, h]

theorem runEnd_of_other_fault {f : Fault} (h : step s = .fault f) (hbrk : f ≠ .brk) (hend : f ≠ .endOfRun) :
    runEnd named (n + 1) s = .notFinal s := by
  rw [runEnd, h]
  cases f with
  | brk => exact absurd rfl hbrk
  | endOfRun => exact absurd rfl hend
  | fetchOutsideProgramMemory | unprogrammedByte | unwrittenRegister => rfl

/-- A state in which a run ends final: its step answers endOfRun, or the Break that the claim names. -/
def EndsFinal (named : Option Addr16) (s : State) : Prop :=
  step s = .fault .endOfRun ∨ (named = some s.pc ∧ step s = .fault .brk)

/-- A run with a step left ends final where it stands, or goes on and does. -/
theorem final_of_runEnd_succ (h : runEnd named (n + 1) s = .final t) :
    (s = t ∧ EndsFinal named s) ∨ ∃ u, step s = .next u ∧ runEnd named n u = .final t := by
  match hs : step s with
  | .next u => exact .inr ⟨u, rfl, (runEnd_of_next hs).symm.trans h⟩
  | .refused q =>
    rw [runEnd_of_refused hs] at h
    cases h
  | .fault f =>
    by_cases hend : f = .endOfRun
    · subst hend
      rw [runEnd_of_endOfRun hs] at h
      cases h
      exact .inl ⟨rfl, .inl hs⟩
    by_cases hbrk : f = .brk
    · subst hbrk
      rw [runEnd_of_brk hs] at h
      split at h
      · cases h
        exact .inl ⟨rfl, .inr ⟨‹_›, hs⟩⟩
      · cases h
    · rw [runEnd_of_other_fault hs hbrk hend] at h
      cases h

theorem endsFinal_of_runEnd (h : runEnd named n s = .final t) : EndsFinal named t := by
  induction n generalizing s with
  | zero => cases h
  | succ n ih =>
    rcases final_of_runEnd_succ h with ⟨rfl, hs⟩ | ⟨u, -, hu⟩
    · exact hs
    · exact ih hu

end

/-- Settles O13: one equation of `runEnd` for each answer of the step, and the last state of a final run by induction
on the steps left. -/
theorem runEndings : Obligations.RunEndings := by
  intro named n s
  refine ⟨fun h => runEnd_of_endOfRun ((runEndsExactlyAtEndPc s).mpr h), fun h hn => ?_, fun h hn => ?_,
    fun f h hbrk hend => runEnd_of_other_fault h hbrk hend, fun q h => runEnd_of_refused h,
    fun t h => runEnd_of_next h, fun t h => ?_⟩
  · rw [runEnd_of_brk h, if_pos hn]
  · rw [runEnd_of_brk h, if_neg hn]
  · exact (endsFinal_of_runEnd h).imp_left (runEndsExactlyAtEndPc t).mp

end Sys2Proof.Machine
end

section
/-! Undefined values (70_reset_and_hazards.md R222): which reads of them fault, and what defines them. -/

namespace Sys2Proof.Machine

/-! ### Reads of a location -/

theorem regRead_of_unwritten {s : State} {a : Addr12} (hm : modelled s.cfg a = true) (hu : unwritten s a = true) :
    regRead s a = .fault (.unwrittenRegister a) := regRead_eq_fault.mpr ⟨hm, hu, rfl⟩

/-- A location of storage that State lists no byte for is unwritten where the launch state gives it no value. -/
theorem unwritten_of_unlisted {s : State} {a : Addr12} (hc : hasStorage s.cfg a = true)
    (hl : cellFind s.regs a.toNat = none) (hb : s.cfg.blank = none) : unwritten s a = true := by
  have hfind : regFileFind s.cfg.blank s.regs a = none := by rw [regFileFind, hl, hb, Option.or_none]
  unfold hasStorage at hc
  unfold unwritten
  split at hc <;> simp_all

theorem modelled_of_hasStorage {c : Config} {a : Addr12} (h : hasStorage c a = true) : modelled c a = true := by
  unfold hasStorage at h
  unfold modelled
  split at h <;> simp_all

/-! ### RP in an operand -/

/-- With RP undefined every operand that names a working register or takes the Page Pointer faults. -/
theorem resolve_of_undefined_rp {s : State} {l : Loc} (h : s.undef.rp = true)
    (hl : ∀ e, l = .ER e → e.extractLsb' 4 8 = 0xEE) : resolve s l = .fault (.unwrittenRegister s.cfg.rpAddr) := by
  have hrp : rpOf s = .fault (.unwrittenRegister s.cfg.rpAddr) := rpOf_eq_fault.mpr ⟨h, rfl⟩
  cases l with
  | r | R | Ir | IR => rw [resolve, hrp, andThen_fault]
  | ER e => rw [resolve, eaER, if_pos (hl e rfl), hrp, andThen_fault]

/-! ### The flags a condition code reads -/

/-- The condition codes that read each of V, S, Z and C (R39); no code reads D, H, F2 or F1. -/
theorem flagsMeet_condReads {u : Flags} {cc : Cond} :
    flagsMeet u (condReads cc) = true ↔
      (u.v = true ∧ cc ∈ ([.lt, .le, .ov, .ge, .gt, .nov] : List Cond)) ∨
      (u.s = true ∧ cc ∈ ([.lt, .le, .mi, .ge, .gt, .pl] : List Cond)) ∨
      (u.z = true ∧ cc ∈ ([.le, .ule, .z, .gt, .ugt, .nz] : List Cond)) ∨
      (u.c = true ∧ cc ∈ ([.ule, .c, .ugt, .nc] : List Cond)) := by
  cases cc <;> simp [flagsMeet, condReads, Flags.zero, or_comm, or_left_comm]

theorem flagsFor_of_undefined {s : State} {m : Flags} (h : flagsMeet s.undef.flags m = true) :
    flagsFor s m = .fault (.unwrittenRegister s.cfg.flagsAddr) := flagsFor_eq_fault.mpr ⟨h, rfl⟩

/-! ### What defines a value -/

theorem readable_of_regWrite {s t : State} {a : Addr12} {v : Byte} (h : regWrite s a v = .next t) :
    readable t a = true := by
  obtain ⟨hm, rfl⟩ := regWrite_eq_next.mp h
  exact readable_eq_true.mpr ⟨by rwa [regPut_cfg], unwritten_put_self s a v⟩

theorem flagsMinus_addDefines (u : Flags) :
    flagsMinus u addDefines = { Flags.zero with f2 := u.f2, f1 := u.f1 } := by
  simp [flagsMinus, addDefines, Flags.zero]

/-- A stored result defines the flags it sets and no other: its destination is not Flags (R42). -/
theorem undef_flags_of_storeResult {f : Byte → Byte → Byte} {fl : Byte → Byte → Flags → Flags} {d : Flags} {len : Nat}
    {dst : Loc} {src : Src} {s t : State} (h : storeResult f fl d len dst src s = .next t) :
    t.undef.flags = flagsMinus s.undef.flags d := by
  obtain ⟨o, ho, rfl⟩ := storeResult_eq_next.mp h
  obtain ⟨-, -, hc, -⟩ := operands_eq_next.mp ho
  rw [advance_undef, putFlags_undef, regPut_undef_flags_of_ne _ hc]

section
variable {i : Instr} {s t : State}

theorem undef_flags_of_addForm (hi : addForm i ≠ none) (h : exec i s = .next t) :
    t.undef.flags = { Flags.zero with f2 := s.undef.flags.f2, f1 := s.undef.flags.f1 } := by
  obtain ⟨⟨dst, src⟩, hi⟩ := Option.ne_none_iff_exists'.mp hi
  rw [exec_of_addForm hi] at h
  exact (undef_flags_of_storeResult h).trans (flagsMinus_addDefines _)

theorem undef_flags_of_andForm (hi : andForm i ≠ none) (h : exec i s = .next t) :
    t.undef.flags = { s.undef.flags with z := false, s := false, v := false } := by
  obtain ⟨⟨dst, src⟩, hi⟩ := Option.ne_none_iff_exists'.mp hi
  rw [exec_of_andForm hi] at h
  exact (undef_flags_of_storeResult h).trans (flagsMinus_logicDefines _)

theorem undef_flags_of_testForm (hi : testForm i ≠ none) (h : exec i s = .next t) :
    t.undef.flags = { s.undef.flags with z := false, s := false, v := false } := by
  obtain ⟨⟨dst, src⟩, hi⟩ := Option.ne_none_iff_exists'.mp hi
  obtain ⟨f, hf⟩ := exec_of_testForm (s := s) hi
  rw [hf] at h
  obtain ⟨o, -, rfl⟩ := testResult_eq_next.mp h
  exact flagsMinus_logicDefines _

end

/-- Settles O24: the reads that fault clause by clause, then the writes, which define what they write. -/
theorem undefinedValuesFaultWhenRead : Obligations.UndefinedValuesFaultWhenRead := by
  refine ⟨fun s a hc hl hb => ?_, fun s n b hrp => ⟨fun l hl => ?_, fun e => resolve_ER_of_page_ne⟩,
    fun s hrp hc => ?_, fun s hc hu => ?_, fun s cc ra da16 h => ?_, fun s ra => ?_,
    fun s a v => ⟨fun f => regWrite_not_fault, fun t => readable_of_regWrite⟩,
    fun i s t h => ⟨fun hi => undef_flags_of_addForm hi h,
      fun hi => hi.elim (undef_flags_of_andForm · h) (undef_flags_of_testForm · h), fun im hi => ?_⟩⟩
  · have hstore : hasStorage s.cfg a = true := by rcases hc with hc | hc | hc <;> simp [hasStorage, hc]
    exact regRead_of_unwritten (modelled_of_hasStorage hstore) (unwritten_of_unlisted hstore hl hb)
  · refine resolve_of_undefined_rp hrp fun e he => ?_
    subst he
    obtain rfl : e = (0xEE : Byte) ++ n := by simpa using hl
    exact upper_append _ _
  · exact regRead_of_unwritten (by simp [modelled, hc]) (by simp [unwritten, hc, hrp])
  · have hmeet : flagsMeet s.undef.flags allFlags = true := by
      simpa using mt flagsMeet_allFlags.mp hu
    exact regRead_of_unwritten (modelled_of_flags hc) (by simp [unwritten, hc, hmeet])
  · have hflags := flagsFor_of_undefined (flagsMeet_condReads.mpr h)
    exact ⟨by rw [exec, execJr, hflags, andThen_fault], by rw [exec, execJp, hflags, andThen_fault]⟩
  · have hnone : flagsMeet s.undef.flags Flags.zero = false := flagsMeet_zero_right _
    exact ⟨⟨_, execJr_eq_next.mpr ⟨hnone, rfl⟩⟩, ⟨_, execJr_eq_next.mpr ⟨hnone, rfl⟩⟩⟩
  · subst hi
    cases h
    rfl

end Sys2Proof.Machine
end

section
/-! Single words of the formats (95_test_vectors.md). -/

namespace Sys2Proof

/-- The encoding of an instruction, with no byte after it, decodes to the instruction when every row is admitted. -/
theorem decode_of_encode_eq {i : Instr} {bs : List Byte} (h : encode i = bs) : decode true bs = .instr i [] := by
  simpa [h] using decode_encode (i := i) (fun _ => rfl) []

/-- Settles O6: each of the eleven words is the encoding of its instruction, and the misprinted 66 (conflict C1)
falls through the Op Code map. -/
theorem writtenWordsDecode : Obligations.WrittenWordsDecode := by
  refine ⟨?_, ?_, ?_, ?_, ?_, ?_, ?_, ?_, ?_, ?_, ?_, rfl⟩
  all_goals exact decode_of_encode_eq rfl

end Sys2Proof
end
